-- ==== Sys2Proof/Word.lean ====
section
/-! DEFINITION. The byte, the 32-bit bus and command word, and byte strings of a fixed length (R7).
Every value of this core is unsigned; a message, a block or a digest is a byte string indexed from 0. -/

namespace Sys2Proof

/-- A byte is 8 bits; bit 0 is the least significant (R7). -/
abbrev Byte := BitVec 8

/-- A 32-bit bus data word, which is also the width of a command word (R28, R39). -/
abbrev Word := BitVec 32

/-- A byte string of `n` bytes, `s[0]` to `s[n-1]` (R7). -/
abbrev Bytes (n : Nat) := Vector Byte n

end Sys2Proof
end

