-- ==== Sys2Proof/Syntax.lean ====
section
/-! DEFINITION. The core's instructions are its command words (R22, R39, R40): one constructor for each row of
spec/opcode_table.json. Every other word is illegal and stands for no instruction (R43, R44). -/

namespace Sys2Proof

/-- A command of the core (R40). -/
inductive Instr where
  /-- `INIT`, OP = 1 (R74). -/
  | init
  /-- `UPDATE`, OP = 2, with its 10-bit operand `BITLEN`: how many message bits to take from `STAGE`
  (R41, R75 to R77). -/
  | update (bitlen : BitVec 10)
  /-- `FINALIZE`, OP = 3 (R78 to R82). -/
  | finalize
  deriving DecidableEq, Repr

end Sys2Proof
end

