-- ==== Sys2Proof/WellFormed.lean ====
section
/-! DEFINITION. Which instructions have a legal command word: `BITLEN` is at most 512, because `STAGE` holds
512 bits (R41, R43). -/

namespace Sys2Proof

/-- The largest legal `BITLEN`, in bits (R6, R41). -/
abbrev maxBitlen : Nat := 512

/-- The instruction has a legal command word (R41, R43). -/
abbrev Instr.WellFormed (i : Instr) : Prop :=
  match i with
  | .init => True
  | .update bitlen => bitlen.toNat ≤ maxBitlen
  | .finalize => True

end Sys2Proof
end

