-- ==== Sys2Proof/Decode.lean ====
section
/-! DEFINITION. The command word format `CMDW` and its decoder, total on every 32-bit word, and after it the
encoder (spec/30_encoding.md, R39 to R44). A command word is delivered whole by one aligned 32-bit write, so
no length decoding is needed (R39). -/

namespace Sys2Proof

/-- The field `OP`, bits 3:0 of a command word (R39). -/
def cmdOp (w : Word) : BitVec 4 := w.extractLsb' 0 4

/-- The reserved field `RSV0`, bits 15:4 of a command word (R39, R42). -/
def cmdRsv0 (w : Word) : BitVec 12 := w.extractLsb' 4 12

/-- The field `BITLEN`, bits 25:16 of a command word (R39, R41). -/
def cmdBitlen (w : Word) : BitVec 10 := w.extractLsb' 16 10

/-- The reserved field `RSV1`, bits 31:26 of a command word (R39, R42). -/
def cmdRsv1 (w : Word) : BitVec 6 := w.extractLsb' 26 6

/-- Why a word is no legal command: the four causes of R88. -/
inductive DecodeError where
  /-- A reserved field, `RSV0` or `RSV1`, is not 0 (R42). -/
  | reservedField
  /-- `OP` is 0 or one of 4 to 15 (R40). -/
  | reservedOp
  /-- `UPDATE` with `BITLEN` above 512 (R41). -/
  | bitlenTooLong
  /-- `INIT` or `FINALIZE` with a `BITLEN` that is not 0 (R41). -/
  | bitlenNotZero
  deriving DecidableEq, Repr

/-- Decodes an `INIT` or `FINALIZE` word's length field, which must be 0 (R41). -/
def decodeNoOperand (i : Instr) (bitlen : BitVec 10) : Except DecodeError Instr :=
  if bitlen = 0 then .ok i else .error .bitlenNotZero

/-- Decodes an `UPDATE` word's length field, which may be 0 to 512 (R41). -/
def decodeUpdate (bitlen : BitVec 10) : Except DecodeError Instr :=
  if bitlen.toNat ≤ maxBitlen then .ok (.update bitlen) else .error .bitlenTooLong

/-- The instruction a command word stands for, or why it is illegal (R39 to R44). -/
def decode (w : Word) : Except DecodeError Instr :=
  if cmdRsv0 w ≠ 0 ∨ cmdRsv1 w ≠ 0 then .error .reservedField
  else if cmdOp w = 0x1#4 then decodeNoOperand .init (cmdBitlen w)
  else if cmdOp w = 0x2#4 then decodeUpdate (cmdBitlen w)
  else if cmdOp w = 0x3#4 then decodeNoOperand .finalize (cmdBitlen w)
  else .error .reservedOp

/-- The predicate `legal(w)` as R43 writes it. -/
def legal (w : Word) : Bool :=
  decide (w.extractLsb' 4 12 = 0 ∧ w.extractLsb' 26 6 = 0 ∧
    ((w.extractLsb' 0 4 = 0x1#4 ∧ w.extractLsb' 16 10 = 0) ∨
     (w.extractLsb' 0 4 = 0x2#4 ∧ (w.extractLsb' 16 10).toNat ≤ 512) ∨
     (w.extractLsb' 0 4 = 0x3#4 ∧ w.extractLsb' 16 10 = 0)))

/-- The command word of an instruction (R39, R40, R47): `OP` in bits 3:0, `BITLEN` in bits 25:16, the
reserved fields 0. -/
def encode (i : Instr) : Word :=
  match i with
  | .init => 0x00000001#32
  | .update bitlen => 0x00000002#32 ||| (bitlen.setWidth 32 <<< 16)
  | .finalize => 0x00000003#32

/-- The command word of `nbits` table bits `w`, bit 0 the least significant; the bits above are 0. -/
def tableWord (nbits w : Nat) : Word := BitVec.ofNat 32 (w % 2 ^ nbits)

/-- The instruction the decoder reads from a word numbered as spec/opcode_table.json numbers it. -/
def decodeTableWord (nbits w : Nat) : Option Instr :=
  match decode (tableWord nbits w) with
  | .ok i => some i
  | .error _ => none

end Sys2Proof
end

