-- ==== Sys2Proof/Config.lean ====
section
/-! DEFINITION. What the spec leaves to the platform or leaves open (spec/92_eei_decisions.md,
spec/93_implementation_defined.md). Each is an opaque constant: it has no body, so no proof can rest on
a value of it, and what is proved holds whatever it is. -/

namespace Sys2Proof

/-- OPEN (R6, D2, U7): which 512-byte block of the bus the register window occupies; `GROESTL_BASE` is
512 times this, so it is 512-byte aligned whatever the platform chooses. Log entry 3. -/
opaque Config.baseBlock : Nat

/-- OPEN (R6, R71, R106, D14, U6): how many engine steps beyond the first a command takes, a function of
the command word, `BUFLEN` and `PEND` at acceptance and of nothing else. Log entry 4. -/
opaque Config.extraLatency : Word → BitVec 7 → BitVec 3 → Nat

/-- FREE VALUE (R6, R71): how many of its waiting transactions the host gets in before the engine's next
step. Applied to a fresh count at every acceptance and engine step, it ranges over every interleaving in
which the engine steps again after finitely many transactions (the weak fairness of R71). DESIGN CHOICE (log entry 5):
it depends on the count alone, so that two runs with the same counts interleave alike. -/
opaque Config.hostTurns : Nat → Nat

/-- FREE VALUE, the spec's `draw()` (R8, R98, R101, D16, U5, U9): what a read returns where the spec leaves
the bits open, applied to a fresh count at every such read. DESIGN CHOICE (log entry 6): the spec admits any value
(R101, D16), one that depends on the core's state among them; here it depends on the count alone. For one run that is
no limit, because no value of the function is known; two runs with the same counts draw the same values, and a claim
that compares two runs rests on this choice. -/
opaque Config.draw : Nat → Word

end Sys2Proof
end

