-- ==== Sys2Proof/Machine/State.lean ====
section
/-! DEFINITION. The state of the core as spec/10_state.md gives it (R9 to R25), the host transactions that wait
at its window, and the state after reset (R25, R98). The core has no general-purpose registers, no program
counter and no memory of its own (R22, R26). -/

namespace Sys2Proof.Machine

/-- The HashState, the core's one mutable hash state (R9 to R14, R24). -/
structure HashState where
  /-- `CV`, the 64-byte chaining value; hidden from the host (R9, R21). -/
  cv : Bytes 64
  /-- `BUF`, the 64-byte block buffer; bytes 0 to BUFLEN - 1 are valid; hidden from the host (R10, R21). -/
  buf : Bytes 64
  /-- `BLKCNT`, the 64-bit count of absorbed blocks, modulo 2^64 (R11). -/
  blkcnt : BitVec 64
  /-- `BUFLEN`, the 7-bit count of valid bytes in `BUF`, a partial trailing byte included (R12). -/
  buflen : BitVec 7
  /-- `PEND`, the 3-bit count of valid high bits of a partial trailing byte; 0 when there is none (R13). -/
  pend : BitVec 3
  deriving DecidableEq, Repr

/-- `PHASE`, the driver state (R15). The value 3 of its 2-bit field is never written, so it has no name here (log
entry 13). -/
inductive Phase where
  /-- `IDLE` = 0: after reset, before the first INIT. -/
  | idle
  /-- `READY` = 1: accepts UPDATE and FINALIZE. -/
  | ready
  /-- `FINALIZED` = 2: a digest has been produced. -/
  | finalized
  deriving DecidableEq, Repr

/-- `RESULT`, the outcome of the last completed command (R18, R85). Codes 4 to 15 are never written, so they
have no name here (log entry 13). -/
inductive ResultCode where
  /-- 0 `OK`: the command completed its effect. -/
  | ok
  /-- 1 `ERR_SEQ`: UPDATE with `PEND` not 0 (R86). -/
  | errSeq
  /-- 2 `ERR_NOT_READY`: UPDATE or FINALIZE outside `READY` (R87). -/
  | errNotReady
  /-- 3 `ERR_ILLEGAL`: the command word is not legal (R88). -/
  | errIllegal
  deriving DecidableEq, Repr

/-- A host bus transaction on the register window (R26 to R28): its byte offset in the window and its width in
bytes; a write carries the data of its 32-bit form. -/
inductive Access where
  | read (off width : Nat)
  | write (off width : Nat) (v : Word)
  deriving DecidableEq, Repr

/-- What the host gets back from a transaction (R28, R31, R32, R91). -/
inductive Reply where
  /-- A read's data. -/
  | data (v : Word)
  /-- A write was performed (or ignored, where the register map says so). -/
  | done
  /-- The bus error response; a read gets no data. -/
  | busError
  deriving DecidableEq, Repr

/-- What reaches the core from outside, in the one total order of R34: the host's transactions, the host's poll
loop (R45), and the two edges of the reset input (R98). -/
inductive Input where
  | access (a : Access)
  /-- The `POLL` of R45: read STATUS again and again until its bit 0 reads 0 (log entry 17). -/
  | poll
  | assertReset
  | deassertReset
  deriving DecidableEq, Repr

/-- Everything the spec gives the machine, and after it what the model needs to run it one step at a time. -/
structure State where
  /-- The HashState: CV, BUF, BLKCNT, BUFLEN, PEND (R9 to R14). -/
  hash : HashState
  /-- `PHASE` (R15). -/
  phase : Phase
  /-- `DIGEST`, the 32-byte output register (R16). -/
  digest : Bytes 32
  /-- `STAGE`, the 64 input staging bytes (R17). -/
  stage : Bytes 64
  /-- `RESULT` (R18). -/
  result : ResultCode
  /-- `OVR`, the sticky overrun flag (R19). -/
  ovr : Bool
  /-- `BUSY`, 1 while a command is in flight (R20). -/
  busy : Bool
  /-- The reset input: true while reset is asserted (R98). -/
  inReset : Bool
  /-- The engine steps the command in flight still needs, its `LAT` counted down (R71, log entry 4); 0 when none is. -/
  latLeft : Nat
  /-- The model's own: the transactions the host still gets in before the engine's next step (log entry 5). -/
  hostTurns : Nat
  /-- The model's own: the count that the next free value is drawn with (log entry 6). -/
  draws : Nat
  /-- What waits at the window, first to arrive first (R34, log entry 1). -/
  inputs : List Input
  /-- What the host has read back so far, oldest first (log entry 1). -/
  replies : List Reply
  deriving DecidableEq, Repr

/-- Why the machine stops. No condition of the spec stops this core (R87, R93). -/
inductive Fault where
  /-- Raised by a step whose next input is a transaction at an offset outside 0x000 to 0x1FF: there is no such
  address in the core's one address space (R26, log entry 10). SAFE: the model stops where the transaction reaches some
  other device, of which this spec says nothing. -/
  | outsideWindow
  deriving DecidableEq, Repr

/-- Why a step has no meaning. -/
inductive Refusal where
  /-- Raised by `exec` alone, for an instruction that has no meaning in the model yet; none is left. SAFE. -/
  | notModelled (mnemonic : String)
  deriving DecidableEq, Repr

/-- A byte string of zeros, `0^n`. -/
abbrev zeroBytes (n : Nat) : Bytes n := Vector.replicate n 0x00#8

/-- The HashState after reset (R25). -/
def HashState.reset : HashState :=
  { cv := zeroBytes 64, buf := zeroBytes 64, blkcnt := 0, buflen := 0, pend := 0 }

/-- The machine right after reset, every field at the value of R25; nothing waits at the window.
The model's own fields, latLeft, hostTurns and draws, are 0 (log entries 4, 5 and 6). -/
def State.reset : State :=
  { hash := HashState.reset, phase := .idle, digest := zeroBytes 32, stage := zeroBytes 64,
    result := .ok, ovr := false, busy := false, inReset := false,
    latLeft := 0, hostTurns := 0, draws := 0, inputs := [], replies := [] }

end Sys2Proof.Machine
end

