-- ==== Sys2Proof/Machine/Operands.lean ====
section
/-! DEFINITION. Operand forms: the two parts of an UPDATE's bit length (R76), byte strings read and written by
index, the byte lanes of a bus word (R29), big-endian encoding (R7), and the register that a window offset names
(R27). -/

namespace Sys2Proof.Machine

/-- `n = BITLEN div 8`, the whole bytes of an UPDATE (R76). -/
def wholeBytes (bitlen : BitVec 10) : Nat := bitlen.toNat / 8

/-- `rem = BITLEN mod 8`, the bits of an UPDATE's partial byte (R76, R77). -/
def tailBits (bitlen : BitVec 10) : Nat := bitlen.toNat % 8

/-- Byte `k` of a byte string. The rules index only inside the string; beyond it the answer is 0 (log entry 8). -/
def byteAt {n : Nat} (s : Bytes n) (k : Nat) : Byte := if h : k < n then s[k] else 0x00#8

/-- The byte string with byte `k` replaced. The rules index only inside the string; beyond it nothing is written
(log entry 8). -/
@[irreducible] def setByte {n : Nat} (s : Bytes n) (k : Nat) (b : Byte) : Bytes n :=
  Vector.ofFn fun j => if j.val = k then b else s[j]

/-- The byte string with bytes `lo` to `hi - 1` set to 0x00 (the fill loops of R80 and R81). -/
@[irreducible] def zeroFill {n : Nat} (s : Bytes n) (lo hi : Nat) : Bytes n :=
  Vector.ofFn fun j => if lo ≤ j.val ∧ j.val < hi then 0x00#8 else s[j]

/-- `BE64(n)`: byte 0 holds bits 63:56 and byte 7 bits 7:0 (R7). -/
def be64 (n : BitVec 64) : Bytes 8 :=
  Vector.ofFn fun k => n.extractLsb' (8 * (7 - k.val)) 8

/-- `BUF[56..63] <- BE64(n)`, the length field of the last block (R81). -/
@[irreducible] def putLength (s : Bytes 64) (n : BitVec 64) : Bytes 64 :=
  Vector.ofFn fun j => if 56 ≤ j.val then byteAt (be64 n) (j.val - 56) else s[j]

/-- Byte lane `k` of a bus word, bits 8k+7:8k, which carries the byte at offset `off + k` (R29). -/
def lane (v : Word) (k : Nat) : Byte := v.extractLsb' (8 * k) 8

/-- The bus word whose lanes are these four bytes, the first in bits 7:0 (R29). -/
def laneWord (b0 b1 b2 b3 : Byte) : Word :=
  b0.setWidth 32 ||| (b1.setWidth 32 <<< 8) ||| (b2.setWidth 32 <<< 16) ||| (b3.setWidth 32 <<< 24)

/-- Word `w` of a byte string on the bus (R29, R31). -/
def busWord {n : Nat} (s : Bytes n) (w : Nat) : Word :=
  laneWord (byteAt s (4 * w)) (byteAt s (4 * w + 1)) (byteAt s (4 * w + 2)) (byteAt s (4 * w + 3))

/-- The byte string after the bus writes word `w` of it (R29, R32). -/
@[irreducible] def setBusWord {n : Nat} (s : Bytes n) (w : Nat) (v : Word) : Bytes n :=
  Vector.ofFn fun j => if j.val / 4 = w then lane v (j.val % 4) else s[j]

/-- The size of the register window in bytes (R6, R26). -/
abbrev windowSize : Nat := 0x200

/-- `GROESTL_BASE`, the bus address of offset 0 of the window, 512-byte aligned (R6, D2). -/
def groestlBase : Nat := windowSize * Config.baseBlock

/-- The bus address of a window offset (R26). -/
def busAddress (off : Nat) : Nat := groestlBase + off

/-- The window offset a bus address reaches, if it reaches the window at all (R26). -/
def windowOffset (addr : Nat) : Option Nat :=
  if groestlBase ≤ addr ∧ addr < groestlBase + windowSize then some (addr - groestlBase) else none

/-- The registers of the window (R27). -/
inductive Register where
  | cmd
  | status
  | blkcntLo
  | blkcntHi
  /-- Word `w` of `STAGE`, 16 of them. -/
  | stage (w : Nat)
  /-- Word `w` of `DIGEST`, 8 of them. -/
  | digest (w : Nat)
  /-- Reads return 0 and writes are ignored. -/
  | reserved
  deriving DecidableEq, Repr

/-- The register an aligned window offset names (R27, R31, R32). -/
def registerAt (off : Nat) : Register :=
  if off = 0x000 then .cmd
  else if off = 0x004 then .status
  else if off = 0x008 then .blkcntLo
  else if off = 0x00C then .blkcntHi
  else if 0x100 ≤ off ∧ off < 0x140 then .stage ((off - 0x100) / 4)
  else if 0x180 ≤ off ∧ off < 0x1A0 then .digest ((off - 0x180) / 4)
  else .reserved

/-- The one access form the window takes: 32 bits wide at an offset that is a multiple of 4 (R28). -/
def alignedWord (off width : Nat) : Bool := decide (width = 4 ∧ off % 4 = 0)

end Sys2Proof.Machine
end

