-- ==== Sys2Proof/Machine/Permutation.lean ====
section
/-! DEFINITION. The permutation engine of spec/41_permutation.md (R54 to R64): the column-major matrix
view of a 64-byte string, the four round steps of P and Q, a round, and the two permutations as pure
functions. The order of the round constants is the published one (spec/90_conflicts.md C1). -/

namespace Sys2Proof.Machine

/-- The two variants of the permutation (R61). -/
inductive Variant where
  | p
  | q
  deriving DecidableEq, Repr

/-- The 8 by 8 byte matrix, as its rows: `A[r][c]` is row `r`, column `c` (R54). -/
abbrev Matrix := Vector (Vector Byte 8) 8

/-- The matrix whose entry in row `r` and column `c` is `f r c`. -/
def matrixOf (f : Fin 8 → Fin 8 → Byte) : Matrix :=
  Vector.ofFn fun r => Vector.ofFn fun c => f r c

/-- `toMatrix(s)`: byte 8c + r of the string is row r, column c (R54). -/
def toMatrix (s : Bytes 64) : Matrix :=
  matrixOf fun r c => s[8 * c.val + r.val]

/-- `toBytes(A)`: byte k of the string is `A[k mod 8][k div 8]` (R54). -/
def toBytes (a : Matrix) : Bytes 64 :=
  Vector.ofFn fun k => (a[k.val % 8])[k.val / 8]

/-- Bytewise exclusive-or of two byte strings of equal length (R7). -/
def xorBytes {n : Nat} (a b : Bytes n) : Bytes n :=
  Vector.ofFn fun k => gadd a[k] b[k]

/-- Column c's part of the round constant, `(c << 4) XOR i` (R55). -/
def columnConstant (c : Fin 8) (i : Nat) : Byte :=
  (BitVec.ofNat 8 c.val <<< 4) ^^^ BitVec.ofNat 8 i

/-- The constant AddRoundConstant XORs into row r and column c in round i: R55 for P, R56 for Q. -/
def roundConstant (v : Variant) (i : Nat) (r c : Fin 8) : Byte :=
  match v with
  | .p => if r = 0 then columnConstant c i else 0x00#8
  | .q => if r = 7 then 0xFF#8 ^^^ columnConstant c i else 0xFF#8

/-- Step 1 of a round, AddRoundConstant (R55, R56). -/
def addRoundConstant (v : Variant) (i : Nat) (a : Matrix) : Matrix :=
  matrixOf fun r c => gadd a[r][c] (roundConstant v i r c)

/-- Step 2 of a round, SubBytes, the same for P and Q (R57). -/
def subBytes (a : Matrix) : Matrix :=
  matrixOf fun r c => sbox a[r][c]

/-- How far row r rotates left: r places for P (R58), (1,3,5,7,0,2,4,6)[r] places for Q (R59). -/
def shiftOffset (v : Variant) (r : Fin 8) : Fin 8 :=
  match v with
  | .p => r
  | .q => #v[1, 3, 5, 7, 0, 2, 4, 6][r]

/-- Step 3 of a round, ShiftBytes: the byte at column (c + offset) mod 8 moves to column c (R58, R59).
Addition in `Fin 8` is modulo 8. -/
def shiftBytes (v : Variant) (a : Matrix) : Matrix :=
  matrixOf fun r c => a[r][c + shiftOffset v r]

/-- The first row of the circulant MixBytes matrix (R60). -/
def mixRow : Bytes 8 := #v[2, 2, 3, 4, 5, 3, 5, 7]

/-- The MixBytes matrix, `B[r][k] = b[(k - r) mod 8]` (R60). Subtraction in `Fin 8` is modulo 8. -/
def mixMatrix (r k : Fin 8) : Byte := mixRow[k - r]

/-- Step 4 of a round, MixBytes: each column times the circulant matrix over GF(2^8) (R60). -/
def mixBytes (a : Matrix) : Matrix :=
  matrixOf fun r c =>
    (List.finRange 8).foldl (fun acc k => gadd acc (gmul (mixMatrix r k) a[k][c])) 0x00#8

/-- One round of a variant: the four steps in order (R61). -/
def round (v : Variant) (a : Matrix) (i : Nat) : Matrix :=
  mixBytes (shiftBytes v (subBytes (addRoundConstant v i a)))

/-- The ten rounds in ascending order, i = 0 to 9 (R5, R62). -/
def rounds (v : Variant) (a : Matrix) : Matrix :=
  (List.range 10).foldl (round v) a

/-- A permutation on 64-byte strings (R62, R63, R64). -/
@[irreducible] def permute (v : Variant) (s : Bytes 64) : Bytes 64 := toBytes (rounds v (toMatrix s))

/-- The permutation P (R62). -/
def permP (s : Bytes 64) : Bytes 64 := permute .p s

/-- The permutation Q (R63). -/
def permQ (s : Bytes 64) : Bytes 64 := permute .q s

end Sys2Proof.Machine
end

