-- ==== Sys2Proof/Machine/Compression.lean ====
section
/-! DEFINITION. The initial value, the compression function, the output transformation and the truncation to the
digest (spec/42_compression_output.md, R65 to R69), all pure. -/

namespace Sys2Proof.Machine

/-- `IV` (R65): 56 zero bytes, then BE64(256), the digest length in bits (log entry 18). -/
def iv : Bytes 64 := putLength (zeroBytes 64) 256

/-- The compression function `f(CV, M) = P(CV XOR M) XOR Q(M) XOR CV` (R66). -/
@[irreducible] def compress (cv m : Bytes 64) : Bytes 64 :=
  xorBytes (xorBytes (permP (xorBytes cv m)) (permQ m)) cv

/-- The output transformation, `P(CV) XOR CV` (R67). -/
@[irreducible] def outputTransform (cv : Bytes 64) : Bytes 64 := xorBytes (permP cv) cv

/-- `trunc(X)`, the last 32 bytes in order (R68). -/
def trunc (x : Bytes 64) : Bytes 32 := Vector.ofFn fun k => x[32 + k.val]

/-- The digest of a final chaining value, `trunc` of its output transformation (R68). -/
@[irreducible] def digestOf (cv : Bytes 64) : Bytes 32 := trunc (outputTransform cv)

end Sys2Proof.Machine
end

