-- ==== Sys2Proof/Machine/Flags.lean ====
section
/-! DEFINITION. The status fields as the host reads them: the codes of `PHASE` (R15) and `RESULT` (R85), and the
`STATUS` word (R30, R31), idle and while a command is in flight (R101). -/

namespace Sys2Proof.Machine

/-- The 2-bit code of `PHASE` (R15, R30). -/
def phaseCode (p : Phase) : BitVec 2 :=
  match p with
  | .idle => 0
  | .ready => 1
  | .finalized => 2

/-- The 4-bit code of `RESULT` (R18, R85). -/
def resultCode (r : ResultCode) : BitVec 4 :=
  match r with
  | .ok => 0
  | .errSeq => 1
  | .errNotReady => 2
  | .errIllegal => 3

/-- The `STATUS` word (R30, R31): PEND in bits 18:16, BUFLEN in 14:8, RESULT in 7:4, OVR in 3, PHASE in 2:1, BUSY
in 0; the reserved bits read 0. -/
def statusWord (s : State) : Word :=
  (s.hash.pend.setWidth 32 <<< 16) ||| (s.hash.buflen.setWidth 32 <<< 8) |||
  ((resultCode s.result).setWidth 32 <<< 4) ||| ((BitVec.ofBool s.ovr).setWidth 32 <<< 3) |||
  ((phaseCode s.phase).setWidth 32 <<< 1) ||| (BitVec.ofBool s.busy).setWidth 32

/-- The `STATUS` word while `BUSY` = 1 (R101): bit 0 reads 1, every other bit is the draw's. -/
def statusBusy (draw : Word) : Word := draw ||| 0x00000001#32

end Sys2Proof.Machine
end

