-- ==== Sys2Proof/Machine/Ops.lean ====
section
/-! DEFINITION. The named operations on the HashState and on the state that the commands and the window share
(spec/43_stream_commands.md, spec/60_exceptions.md, spec/70_reset_and_hazards.md). The core has no traps and no
trap return (R93, R94); what a command raises is a result code (R8, R89), and `raise` is the one operation for it. -/

namespace Sys2Proof.Machine

/-- `raise E` (R8, R89): the result code is written and nothing else. -/
def raise (e : ResultCode) (s : State) : State := { s with result := e }

/-- The HashState that INIT leaves: CV is IV, everything else 0 (R74). -/
def hashInit : HashState :=
  { cv := iv, buf := zeroBytes 64, blkcnt := 0, buflen := 0, pend := 0 }

/-- `BUF[BUFLEN] <- b; BUFLEN <- BUFLEN + 1` (R76, R77, R79). -/
def pushByte (b : Byte) (h : HashState) : HashState :=
  { h with buf := setByte h.buf h.buflen.toNat b, buflen := h.buflen + 1 }

/-- A full buffer is absorbed (R76, R80): CV is compressed with it, BLKCNT counts it modulo 2^64 (R11), and BUFLEN
is 0 again. The bytes of BUF keep their values (R10). -/
def absorb (h : HashState) : HashState :=
  { h with cv := compress h.cv h.buf, blkcnt := h.blkcnt + 1, buflen := 0 }

/-- One turn of the loop of R76: a byte is appended, and a buffer it fills is absorbed. -/
def absorbByte (h : HashState) (b : Byte) : HashState :=
  let h' := pushByte b h
  if h'.buflen = 64 then absorb h' else h'

/-- The loop of R76 over the whole bytes of an UPDATE, in order. -/
def absorbBytes (h : HashState) (bs : List Byte) : HashState := bs.foldl absorbByte h

/-- The partial byte of an UPDATE (R77): when `rem` is not 0 the byte is stored raw and counted in BUFLEN, and PEND is
`rem`. -/
def absorbTail (rem : Nat) (b : Byte) (h : HashState) : HashState :=
  if rem = 0 then h else { pushByte b h with pend := BitVec.ofNat 3 rem }

/-- The partial byte masked to its `b` valid high bits with the next bit set (R79). -/
def padPartial (b : Nat) (x : Byte) : Byte := (x &&& (0xFF#8 <<< (8 - b))) ||| (0x80#8 >>> b)

/-- FINALIZE's pad bit (R79): into the partial byte when there is one, else as a whole byte 0x80. -/
def padBit (h : HashState) : HashState :=
  if h.pend = 0 then pushByte 0x80#8 h
  else
    let last := h.buflen.toNat - 1
    { h with buf := setByte h.buf last (padPartial h.pend.toNat (byteAt h.buf last)), pend := 0 }

/-- FINALIZE's two-block spill (R80): when BUFLEN is above 56, the block is filled with zeros and absorbed. -/
def spill (h : HashState) : HashState :=
  if 56 < h.buflen.toNat then absorb { h with buf := zeroFill h.buf h.buflen.toNat 64 } else h

/-- FINALIZE's length block (R81): zeros up to byte 55, BLKCNT counts this block too and goes big-endian into the last
eight bytes, and the block is compressed. BUFLEN is left to R82. -/
def lengthBlock (h : HashState) : HashState :=
  let n := h.blkcnt + 1
  let block := putLength (zeroFill h.buf h.buflen.toNat 56) n
  { h with cv := compress h.cv block, buf := block, blkcnt := n }

/-- The padding of FINALIZE in order: pad bit, spill, length block (R79, R80, R81). -/
def padAndAbsorb (h : HashState) : HashState := lengthBlock (spill (padBit h))

/-- FINALIZE's hygiene (R82): CV and BUF are zeroed and BUFLEN is 0; BLKCNT keeps its value. -/
def wipe (h : HashState) : HashState :=
  { h with cv := zeroBytes 64, buf := zeroBytes 64, buflen := 0 }

/-- `LAT`, how many engine steps an accepted command takes: finite and at least one, a function of the command word and
of BUFLEN and PEND at acceptance (R6, R71, R106). -/
def latency (w : Word) (buflen : BitVec 7) (pend : BitVec 3) : Nat :=
  Config.extraLatency w buflen pend + 1

/-- The end of acceptance, `BUSY <- 1` (R70): `t` is what the command makes of the state `s` that accepted word `w`. The
engine is given its `LAT` steps, and the host a fresh free number of turns before the first of them. -/
def accept (w : Word) (s t : State) : State :=
  { t with busy := true, latLeft := latency w s.hash.buflen s.hash.pend,
           hostTurns := Config.hostTurns t.draws, draws := t.draws + 1 }

/-- A CMD write while `BUSY` = 1 is dropped; its only effect is `OVR <- 1` (R72, R90). -/
def dropCommand (s : State) : State := { s with ovr := true }

/-- An engine step (R71): the last of a command's `LAT` steps completes it, `BUSY <- 0`, and changes nothing else; an
earlier one only counts down. Afterwards the host gets a fresh free number of turns. -/
def engineStep (s : State) : State :=
  { s with busy := decide (1 < s.latLeft), latLeft := s.latLeft - 1,
           hostTurns := Config.hostTurns s.draws, draws := s.draws + 1 }

/-- The reset event (R98): every piece of state the spec gives the machine takes its reset value of R25, and a command in
flight is abandoned. What waits at the window and what the host has read stay as they are (log entry 9). -/
def resetCore (line : Bool) (s : State) : State :=
  { State.reset with inReset := line, hostTurns := s.hostTurns, draws := s.draws,
                     inputs := s.inputs, replies := s.replies }

/-- The host is given a reply. -/
def reply (r : Reply) (s : State) : State := { s with replies := s.replies ++ [r] }

/-- The free value of this read has been drawn; the next read draws another (R101). -/
def drawn (s : State) : State := { s with draws := s.draws + 1 }

end Sys2Proof.Machine
end

