-- ==== Sys2Proof/Machine/Stream.lean ====
section
/-! DEFINITION. The meanings of the streaming driver's commands, INIT, UPDATE and FINALIZE
(spec/43_stream_commands.md, R73 to R82): the whole architectural effect of an accepted command, applied at
acceptance (R70). The busy check and `BUSY <- 1` stand around them, in Machine/Window.lean. -/

namespace Sys2Proof.Machine

/-- INIT (R74): accepted in every phase; STAGE is unchanged. -/
def execInit (s : State) : Host.Outcome State Fault Refusal :=
  .next { s with ovr := false, hash := hashInit, digest := zeroBytes 32, phase := .ready, result := .ok }

/-- What an UPDATE of `bitlen` bits makes of the HashState once its guards have passed: the whole bytes of `stage` in
order, then the partial byte (R76, R77). -/
def updateHash (bitlen : BitVec 10) (stage : Bytes 64) (h : HashState) : HashState :=
  absorbTail (tailBits bitlen) (byteAt stage (wholeBytes bitlen))
    (absorbBytes h (stage.toList.take (wholeBytes bitlen)))

/-- UPDATE (R75 to R77), with its errors in the order of R92: an operand above 512 is the operand of an illegal word
(R41, R73, log entry 7), then the phase, then a pending partial byte. STAGE is read as it stands at acceptance (R37, R70). -/
def execUpdate (bitlen : BitVec 10) (s : State) : Host.Outcome State Fault Refusal :=
  if maxBitlen < bitlen.toNat then .next (raise .errIllegal s)
  else if s.phase ≠ .ready then .next (raise .errNotReady s)
  else if s.hash.pend ≠ 0 then .next (raise .errSeq s)
  else .next { s with hash := updateHash bitlen s.stage s.hash, result := .ok }

/-- FINALIZE (R78 to R82): its guard, then pad bit, spill and length block, then the digest, the zeroing and the move to
`FINALIZED`. A pending partial byte is no error here. -/
def execFinalize (s : State) : Host.Outcome State Fault Refusal :=
  if s.phase ≠ .ready then .next (raise .errNotReady s)
  else
    let h := padAndAbsorb s.hash
    .next { s with digest := digestOf h.cv, hash := wipe h, phase := .finalized, result := .ok }

end Sys2Proof.Machine
end

