-- ==== Sys2Proof/Machine/Dispatch.lean ====
section
/-! DEFINITION. What each command does at acceptance, one arm per row of the opcode table. -/

namespace Sys2Proof.Machine

def exec (i : Instr) (s : State) : Host.Outcome State Fault Refusal :=
  match i with
  | .init => Sys2Proof.Machine.execInit s
  | .update bitlen => Sys2Proof.Machine.execUpdate bitlen s
  | .finalize => Sys2Proof.Machine.execFinalize s

end Sys2Proof.Machine
end

