-- ==== Sys2Proof/Machine/Window.lean ====
section
/-! DEFINITION. The register window: command issue (R70 to R73), reads and writes (R31, R32, R101), bus errors (R28,
R91), reset (R98), and the one step of the whole machine, which interleaves the engine with the host's transactions
(R34, R71). -/

namespace Sys2Proof.Machine

/-- `IssueCommand(w)` (R70, R72, R73, R92): dropped while busy, before anything is decoded; an illegal word completes
with ERR_ILLEGAL; a legal one has its command's effect. Either of the last two sets BUSY. -/
def issueCommand (w : Word) (s : State) : Host.Outcome State Fault Refusal :=
  if s.busy then .next (dropCommand s)
  else
    match decode w with
    | .error _ => .next (accept w s (raise .errIllegal s))
    | .ok i =>
      match exec i s with
      | .next t => .next (accept w s t)
      | .fault r => .fault r
      | .refused r => .refused r

/-- What a read of a register returns while `BUSY` = 0 (R27, R31). -/
def readIdle (r : Register) (s : State) : Word :=
  match r with
  | .cmd => 0
  | .status => statusWord s
  | .blkcntLo => s.hash.blkcnt.extractLsb' 0 32
  | .blkcntHi => s.hash.blkcnt.extractLsb' 32 32
  | .stage w => busWord s.stage w
  | .digest w => busWord s.digest w
  | .reserved => 0

/-- What a read of a register returns while `BUSY` = 1, given a fresh draw (R101). -/
def readBusy (r : Register) (draw : Word) (s : State) : Word :=
  match r with
  | .cmd => 0
  | .status => statusBusy draw
  | .blkcntLo => draw
  | .blkcntHi => draw
  | .stage w => busWord s.stage w
  | .digest _ => draw
  | .reserved => 0

/-- `MemRead(off, 4)` of an aligned word: the value (R31; while busy R101; while reset is asserted any value, R98). -/
def memRead (off : Nat) (s : State) : Word :=
  if s.inReset then Config.draw s.draws
  else if s.busy then readBusy (registerAt off) (Config.draw s.draws) s
  else readIdle (registerAt off) s

/-- `MemWrite(off, 4, v)` of an aligned word (R32; while reset is asserted it has no effect, R98). -/
def memWrite (off : Nat) (v : Word) (s : State) : Host.Outcome State Fault Refusal :=
  if s.inReset then .next s
  else
    match registerAt off with
    | .cmd => issueCommand v s
    | .stage w => .next { s with stage := setBusWord s.stage w v }
    | .status => .next s
    | .blkcntLo => .next s
    | .blkcntHi => .next s
    | .digest _ => .next s
    | .reserved => .next s

/-- A host read: it gets the register's value, or a bus error unless it is an aligned 32-bit access; the core's state is
unchanged (R28, R31, R91; while reset is asserted log entry 11). -/
def hostRead (off width : Nat) (s : State) : Host.Outcome State Fault Refusal :=
  if windowSize ≤ off then .fault .outsideWindow
  else if alignedWord off width then .next (reply (.data (memRead off s)) (drawn s))
  else .next (reply .busError s)

/-- A host write: it is performed, or gets a bus error and has no effect unless it is an aligned 32-bit access (R28, R32,
R91). -/
def hostWrite (off width : Nat) (v : Word) (s : State) : Host.Outcome State Fault Refusal :=
  if windowSize ≤ off then .fault .outsideWindow
  else if alignedWord off width then
    match memWrite off v s with
    | .next t => .next (reply .done t)
    | .fault r => .fault r
    | .refused r => .refused r
  else .next (reply .busError s)

/-- One turn of the host's poll loop (R45): it reads STATUS, and goes on polling when bit 0 reads 1. -/
def pollStep (s : State) : Host.Outcome State Fault Refusal :=
  let s' := if (memRead 0x004 s).getLsbD 0 then { s with inputs := .poll :: s.inputs } else s
  .next (reply (.data (memRead 0x004 s)) (drawn s'))

/-- What an input does when it reaches the core. -/
def inputStep (i : Input) (s : State) : Host.Outcome State Fault Refusal :=
  match i with
  | .access (.read off width) => hostRead off width s
  | .access (.write off width v) => hostWrite off width v s
  | .poll => pollStep s
  | .assertReset => .next (resetCore true s)
  | .deassertReset => .next (resetCore false s)

/-- The first waiting input is taken from the window, and with it one of the host's turns. -/
def takeInput (rest : List Input) (s : State) : State :=
  { s with inputs := rest, hostTurns := s.hostTurns - 1 }

/-- Whether this step is the engine's (R71): a command is in flight, and the host has nothing waiting or no turn left. -/
def engineTurn (s : State) : Bool := s.busy && (s.inputs.isEmpty || s.hostTurns == 0)

/-- One step of the machine: the engine's, or the first waiting input's (R34, R71). With no command in flight and
nothing waiting, nothing happens (log entry 12). -/
def coreStep (s : State) : Host.Outcome State Fault Refusal :=
  if engineTurn s then .next (engineStep s)
  else
    match s.inputs with
    | [] => .next s
    | i :: rest => inputStep i (takeInput rest s)

/-- The state in which the host's next transaction is the CMD write of word `w` and the core is free to accept it: no
command in flight, reset not asserted (log entry 2). -/
def placeCommand (w : Word) (s : State) : State :=
  { s with busy := false, latLeft := 0, inReset := false,
           inputs := .access (.write 0x000 4 w) :: s.inputs }

end Sys2Proof.Machine
end

