-- ==== Sys2Proof/Machine/Step.lean ====
section
/-! DEFINITION. The machine's step, and the placing of a command word as the next transaction. -/

namespace Sys2Proof.Machine

/-- One step of the machine (R34, R71). -/
def step (s : State) : Host.Outcome State Fault Refusal := Sys2Proof.Machine.coreStep s

/-- `s` with the command word of `nbits` table bits `w` waiting first at the window, the core free to accept it
(log entry 2). -/
def State.withFetchWord (s : State) (nbits w : Nat) : State :=
  Sys2Proof.Machine.placeCommand (Sys2Proof.tableWord nbits w) s

end Sys2Proof.Machine
end

