-- ==== Sys2Proof/Machine/HostProgram.lean ====
section
/-! DEFINITION. The host assembly syntax of R45 and its pseudo-instructions (R46): which transactions each statement
stands for, and what an assembler refuses. A host variable is the host's own; the value it gets is the transaction's
reply. -/

namespace Sys2Proof.Machine

/-- A statement of R45; one input at the window each. -/
inductive BasicStmt where
  | init
  | update (n : Nat)
  | finalize
  /-- `CMD w`: a raw command word, legal or not. -/
  | cmd (w : Word)
  /-- `WR off, v`. -/
  | wr (off : Nat) (v : Word)
  /-- `RD off -> x`. -/
  | rd (off : Nat)
  | poll
  deriving DecidableEq, Repr

/-- A statement of a host program: one of R45 or a pseudo-instruction of R46. -/
inductive Stmt where
  | basic (b : BasicStmt)
  /-- `STAGE b0 b1 … b(m-1)`, at most 64 bytes. -/
  | stage (bytes : List Byte)
  | absorb (n : Nat)
  | initw
  | finalw
  | rddigest
  deriving DecidableEq, Repr

/-- Why an assembler refuses a statement (R45, R46). -/
inductive AsmError where
  /-- `UPDATE n` with n above 512. -/
  | updateTooLong
  /-- `WR` or `RD` at an offset that is no multiple of 4 or exceeds 0x1FC. -/
  | badOffset
  /-- `STAGE` with more than 64 bytes. -/
  | stageTooLong
  deriving DecidableEq, Repr

/-- The offsets an assembler lets `WR` and `RD` use (R45). -/
def asmOffset (off : Nat) : Bool := decide (off % 4 = 0 ∧ off ≤ 0x1FC)

/-- A 32-bit CMD write of a word (R45). -/
def cmdWrite (w : Word) : Input := .access (.write 0x000 4 w)

/-- The transaction of a statement of R45, or why it is refused. DESIGN CHOICE (log entry 19): R45 calls `CMD w` the only
way to write an illegal command word, but its list of refusals admits `WR` at offset 0x000; the model follows the list,
so that `WR 0x000, v` assembles for every v, legal or not. -/
def assembleBasic (b : BasicStmt) : Except AsmError Input :=
  match b with
  | .init => .ok (cmdWrite 0x00000001#32)
  | .update n =>
    if n ≤ 512 then .ok (cmdWrite (0x00000002#32 ||| (BitVec.ofNat 32 n <<< 16))) else .error .updateTooLong
  | .finalize => .ok (cmdWrite 0x00000003#32)
  | .cmd w => .ok (cmdWrite w)
  | .wr off v => if asmOffset off then .ok (.access (.write off 4 v)) else .error .badOffset
  | .rd off => if asmOffset off then .ok (.access (.read off 4)) else .error .badOffset
  | .poll => .ok .poll

/-- Word `w` of a STAGE pseudo-instruction's bytes; missing bytes of the last word are 0 (R46). -/
def stageWord (bytes : List Byte) (w : Nat) : Word :=
  laneWord (bytes.getD (4 * w) 0) (bytes.getD (4 * w + 1) 0) (bytes.getD (4 * w + 2) 0) (bytes.getD (4 * w + 3) 0)

/-- The expansion of a statement into statements of R45, or why it is refused (R46). -/
def expand (st : Stmt) : Except AsmError (List BasicStmt) :=
  match st with
  | .basic b => .ok [b]
  | .stage bytes =>
    if bytes.length ≤ 64 then
      .ok ((List.range ((bytes.length + 3) / 4)).map fun w => .wr (0x100 + 4 * w) (stageWord bytes w))
    else .error .stageTooLong
  | .absorb n => .ok [.update n, .poll]
  | .initw => .ok [.init, .poll]
  | .finalw => .ok [.finalize, .poll]
  | .rddigest => .ok ((List.range 8).map fun w => .rd (0x180 + 4 * w))

/-- The transactions of statements of R45 in order, or the first refusal. -/
def assembleAll : List BasicStmt → Except AsmError (List Input)
  | [] => .ok []
  | b :: rest =>
    match assembleBasic b, assembleAll rest with
    | .ok i, .ok is => .ok (i :: is)
    | .error e, _ => .error e
    | .ok _, .error e => .error e

/-- The transactions a host program stands for, in order, or the first refusal (R45, R46). -/
def assemble : List Stmt → Except AsmError (List Input)
  | [] => .ok []
  | st :: rest =>
    match expand st with
    | .error e => .error e
    | .ok bs =>
      match assembleAll bs, assemble rest with
      | .ok is, .ok more => .ok (is ++ more)
      | .error e, _ => .error e
      | .ok _, .error e => .error e

/-- The state with a host program's transactions waiting after those that wait already (log entry 2). -/
def loadInputs (is : List Input) (s : State) : State := { s with inputs := s.inputs ++ is }

end Sys2Proof.Machine
end

