-- ==== Sys2Proof/Machine/Message.lean ====
section
/-! DEFINITION. Whole messages (R83, R84): the bits an UPDATE takes from STAGE, the padded message as a bit string, its
blocks, and the digest as a function of the message bits alone. The commands do not use this file; claims about them
are stated in its terms. -/

namespace Sys2Proof.Machine

/-- The bits of a byte, most significant first (R7). -/
def byteBits (b : Byte) : List Bool := (List.range 8).map fun i => b.getLsbD (7 - i)

/-- The byte whose bits, most significant first, are `f 0` to `f 7` (R7). -/
def packByte (f : Nat → Bool) : Byte :=
  (List.range 8).foldl (fun acc i => (acc <<< 1) ||| (BitVec.ofBool (f i)).setWidth 8) 0x00#8

/-- One UPDATE of a message: what STAGE holds and the operand BITLEN. -/
structure Chunk where
  stage : Bytes 64
  bitlen : BitVec 10
  deriving DecidableEq, Repr

/-- The message bits an UPDATE takes: the first BITLEN bits of STAGE, each byte most significant bit first (R7, R41,
R76). -/
def chunkBits (c : Chunk) : List Bool := (c.stage.toList.flatMap byteBits).take c.bitlen.toNat

/-- The message bits of a sequence of UPDATEs (R83). -/
def messageBits (cs : List Chunk) : List Bool := cs.flatMap chunkBits

/-- The UPDATE lengths of R83: each at most 512, and every one but the last a multiple of 8. -/
def chunksAligned : List Chunk → Bool
  | [] => true
  | [c] => decide (c.bitlen.toNat ≤ 512)
  | c :: rest => decide (c.bitlen.toNat ≤ 512 ∧ c.bitlen.toNat % 8 = 0) && chunksAligned rest

/-- The state with STAGE holding these bytes, as the host's STAGE writes leave it (R32). -/
def staged (stage : Bytes 64) (s : State) : State := { s with stage := stage }

/-- The UPDATEs of a message, one after another, each with its own STAGE contents (R83). -/
def execChunks : List Chunk → State → Host.Outcome State Fault Refusal
  | [], s => .next s
  | c :: rest, s =>
    match exec (.update c.bitlen) (staged c.stage s) with
    | .next t => execChunks rest t
    | .fault r => .fault r
    | .refused r => .refused r

/-- `B = ceil((N + 65) / 512)`, the blocks of a message of N bits (R84). -/
def blockCount (n : Nat) : Nat := (n + 65 + 511) / 512

/-- `w = (-N - 65) mod 512`, the zero bits of the padding (R84). -/
def zeroBits (n : Nat) : Nat := (512 - (n + 65) % 512) % 512

/-- The padded message `M || 1 || 0^w || BE64(B)` (R84). -/
def paddedBits (m : List Bool) : List Bool :=
  m ++ [true] ++ List.replicate (zeroBits m.length) false ++
    (be64 (BitVec.ofNat 64 (blockCount m.length))).toList.flatMap byteBits

/-- Block `j` of a bit string: 64 bytes, each packed most significant bit first (R7). -/
def blockAt (bits : List Bool) (j : Nat) : Bytes 64 :=
  Vector.ofFn fun k => packByte fun i => bits.getD (512 * j + 8 * k.val + i) false

/-- The chaining value after the padded message's blocks, from IV (R65, R66, R84). -/
def chainBits (m : List Bool) : Bytes 64 :=
  (List.range (blockCount m.length)).foldl (fun cv j => compress cv (blockAt (paddedBits m) j)) iv

/-- The Grøstl-256 digest of a bit string (R68, R83, R84). -/
def hashBits (m : List Bool) : Bytes 32 := digestOf (chainBits m)

end Sys2Proof.Machine
end

