-- ==== Sys2Proof/Safety.lean ====
section
/-! DEFINITION. What the claims call a good state and a run that reaches the core: the invariants of R14, R15, R82, R98
and R105 over the state, and the inputs whose every transaction lies in the register window (R26). -/

namespace Sys2Proof.Machine

/-- The HashState invariants of R14 for a message in progress: with a partial byte pending, 1 ≤ BUFLEN ≤ 64; without,
BUFLEN ≤ 63. -/
abbrev HashState.Streaming (h : HashState) : Prop :=
  if h.pend = 0 then h.buflen.toNat ≤ 63 else 1 ≤ h.buflen.toNat ∧ h.buflen.toNat ≤ 64

/-- Outside `READY` no message data is left: CV and BUF are zero, and nothing is counted or pending (R82, R25). -/
abbrev HashState.Wiped (h : HashState) : Prop :=
  h.cv = zeroBytes 64 ∧ h.buf = zeroBytes 64 ∧ h.buflen = 0 ∧ h.pend = 0

/-- The machine's invariant. In `READY` the HashState is that of a message in progress, and outside it is wiped (R14,
R82); before the first FINALIZE after an INIT or a reset the digest is zero (R31); BUSY is 1 exactly while the engine has
steps left (R20, R71); and while reset is asserted every piece of state has its reset value (R98). -/
abbrev State.Inv (s : State) : Prop :=
  (if s.phase = .ready then s.hash.Streaming else s.hash.Wiped) ∧
  (s.phase = .idle → s.hash.blkcnt = 0) ∧
  (s.phase ≠ .finalized → s.digest = zeroBytes 32) ∧
  (s.busy = true ↔ 1 ≤ s.latLeft) ∧
  (s.inReset = true → s.hash = HashState.reset ∧ s.phase = .idle ∧ s.stage = zeroBytes 64 ∧
    s.result = .ok ∧ s.ovr = false ∧ s.busy = false)

/-- The input's transaction, if it is one, lies in the register window (R26). -/
abbrev Input.InWindow (i : Input) : Prop :=
  match i with
  | .access (.read off _) => off < windowSize
  | .access (.write off _ _) => off < windowSize
  | .poll => True
  | .assertReset => True
  | .deassertReset => True

/-- Every transaction that waits at the window lies in it. -/
abbrev State.InWindow (s : State) : Prop := ∀ i ∈ s.inputs, i.InWindow

end Sys2Proof.Machine
end

