-- ==== Sys2Proof/Certificates/Slice0/Obligations.lean ====
section
/-! DEFINITION. The statements for the provers, taken from the numbered rules of spec/. They are about the decoder and the
encoder, the field and the permutations, what each command does and leaves unchanged, what a host transaction does, and
what every step of the machine keeps. Fields named latLeft, hostTurns, draws, inputs and replies are the model's own
(log entries 1, 4, 5 and 6); the statements hold for every value of them and of the free values of Config. -/

open Sys2Proof Sys2Proof.Machine

/-! ## Encoding (spec/30_encoding.md) -/

/-- R39, R40, R41, R43: no bit of a legal command word is dropped, for every instruction and every operand value. -/
def Obligations.DecodeOfEncode : Prop :=
  ∀ i : Instr, i.WellFormed → decode (encode i) = .ok i

/-- R39 to R43: a word that decodes is the one word of a well-formed instruction. -/
def Obligations.EncodeOfDecode : Prop :=
  ∀ (w : Word) (i : Instr), decode w = .ok i → i.WellFormed ∧ encode i = w

/-- R43: which words are legal, as the predicate and (this part the spec marks as derived from R39 to R42) as the list of
the 515 legal words, and what an accepted illegal word does. -/
def Obligations.LegalWords : Prop :=
  (∀ w : Word, (∃ i, decode w = .ok i) ↔
      (w.extractLsb' 4 12 = 0 ∧ w.extractLsb' 26 6 = 0 ∧
        ((w.extractLsb' 0 4 = 0x1#4 ∧ w.extractLsb' 16 10 = 0) ∨
         (w.extractLsb' 0 4 = 0x2#4 ∧ (w.extractLsb' 16 10).toNat ≤ 512) ∨
         (w.extractLsb' 0 4 = 0x3#4 ∧ w.extractLsb' 16 10 = 0)))) ∧
  (∀ w : Word, (∃ i, decode w = .ok i) ↔
      (w = 0x00000001#32 ∨ w = 0x00000003#32 ∨
        ∃ n : Nat, n ≤ 512 ∧ w = 0x00000002#32 ||| (BitVec.ofNat 32 n <<< 16))) ∧
  (∀ m n : Nat, m ≤ 512 → n ≤ 512 →
      0x00000002#32 ||| (BitVec.ofNat 32 m <<< 16) = 0x00000002#32 ||| (BitVec.ofNat 32 n <<< 16) → m = n) ∧
  (∀ (w : Word) (s : State), s.busy = false → (¬ ∃ i, decode w = .ok i) →
      issueCommand w s = .next (accept w s { s with result := .errIllegal }))

/-- R47 (which the spec marks as derived from R39 to R43): the encoding examples, legal and illegal. -/
def Obligations.EncodingExamples : Prop :=
  encode .init = 0x00000001#32 ∧ encode .finalize = 0x00000003#32 ∧
  encode (.update 24) = 0x00180002#32 ∧ encode (.update 0) = 0x00000002#32 ∧
  encode (.update 512) = 0x02000002#32 ∧ encode (.update 447) = 0x01BF0002#32 ∧
  decode 0x00000001#32 = .ok .init ∧ decode 0x00000003#32 = .ok .finalize ∧
  decode 0x00180002#32 = .ok (.update 24) ∧ decode 0x00000002#32 = .ok (.update 0) ∧
  decode 0x02000002#32 = .ok (.update 512) ∧ decode 0x01BF0002#32 = .ok (.update 447) ∧
  decode 0x00000000#32 = .error .reservedOp ∧ decode 0x00010001#32 = .error .bitlenNotZero ∧
  decode 0x02010002#32 = .error .bitlenTooLong ∧ decode 0x00000012#32 = .error .reservedField ∧
  decode 0x04000002#32 = .error .reservedField ∧ decode 0x00000004#32 = .error .reservedOp

/-! ## Field (spec/40_field.md) -/

/-- R49, R50 (which the spec marks as derived from R48): the laws of the field's multiplication and addition. -/
def Obligations.FieldLaws : Prop :=
  (∀ b : Byte, gmul 0 b = 0) ∧ (∀ b : Byte, gmul 1 b = b) ∧
  (∀ a b : Byte, gmul a b = gmul b a) ∧
  (∀ a b c : Byte, gmul (gmul a b) c = gmul a (gmul b c)) ∧
  (∀ a b c : Byte, gmul a (gadd b c) = gadd (gmul a b) (gmul a c)) ∧
  (∀ a : Byte, gadd a a = 0 ∧ gadd a 0 = a)

/-- R51 (which the spec marks as derived from R49 and R50): MixBytes multiplies by 2, 3, 4, 5 and 7 alone, and these
multiples by `xtime`. -/
def Obligations.ConstantMultiples : Prop :=
  (∀ r k : Fin 8, mixMatrix r k ∈ [2#8, 3#8, 4#8, 5#8, 7#8]) ∧
  (∀ x : Byte, gmul 2 x = xtime x ∧ gmul 3 x = xtime x ^^^ x ∧ gmul 4 x = xtime (xtime x) ∧
    gmul 5 x = xtime (xtime x) ^^^ x ∧ gmul 7 x = xtime (xtime x) ^^^ xtime x ^^^ x)

/-- R52: S is a bijection without a fixed point (and, T2.18 of spec/95_test_vectors.md, without an opposite one). -/
def Obligations.SboxBijection : Prop :=
  Function.Bijective sbox ∧ ∀ b : Byte, sbox b ≠ b ∧ sbox b ≠ b ^^^ 0xFF#8

/-- R53: the table of S is the affine map of the field inverse, and every byte but 0 has an inverse. The spec takes
the algebraic form from general knowledge (log entry 18). -/
def Obligations.SboxIsAffineOfInverse : Prop :=
  (∀ b : Byte, b ≠ 0 → ∃ c, gmul b c = 1) ∧
  (∀ b c : Byte, (if b = 0 then c = 0 else gmul b c = 1) →
    sbox b = c ^^^ (c.rotateLeft 1) ^^^ (c.rotateLeft 2) ^^^ (c.rotateLeft 3) ^^^ (c.rotateLeft 4) ^^^ 0x63#8)

/-! ## Permutation engine (spec/41_permutation.md) -/

/-- R54: the column-major view, in both directions. -/
def Obligations.ColumnMajor : Prop :=
  (∀ (s : Bytes 64) (r c : Fin 8), (toMatrix s)[r][c] = s[8 * c.val + r.val]) ∧
  (∀ (a : Matrix) (k : Fin 64), (toBytes a)[k] = a[k.val % 8][k.val / 8]) ∧
  (∀ s : Bytes 64, toBytes (toMatrix s) = s) ∧ (∀ a : Matrix, toMatrix (toBytes a) = a)

/-- R55, R56: what AddRoundConstant does to byte k of a block, for P (row 0 gets 16c + i) and for Q (row 7 gets 0xFF
- 16c with i XORed in, every other row 0xFF), and that it undoes itself. The column order is the published one, which
the spec takes from general knowledge (C1, log entry 18). -/
def Obligations.RoundConstants : Prop :=
  (∀ (s : Bytes 64) (i : Nat) (k : Fin 64), i ≤ 9 →
    (toBytes (addRoundConstant .p i (toMatrix s)))[k] =
      if k.val % 8 = 0 then s[k] ^^^ BitVec.ofNat 8 (16 * (k.val / 8) + i) else s[k]) ∧
  (∀ (s : Bytes 64) (i : Nat) (k : Fin 64), i ≤ 9 →
    (toBytes (addRoundConstant .q i (toMatrix s)))[k] =
      if k.val % 8 = 7 then s[k] ^^^ BitVec.ofNat 8 (0xFF - 16 * (k.val / 8)) ^^^ BitVec.ofNat 8 i
      else s[k] ^^^ 0xFF#8) ∧
  (∀ (v : Variant) (i : Nat) (a : Matrix), addRoundConstant v i (addRoundConstant v i a) = a)

/-- R57, R58, R59: SubBytes and ShiftBytes of P and Q on the bytes of a block. -/
def Obligations.SubAndShiftBytes : Prop :=
  (∀ (s : Bytes 64) (k : Fin 64), (toBytes (subBytes (toMatrix s)))[k] = sbox s[k]) ∧
  (∀ (s : Bytes 64) (r c : Fin 8),
    byteAt (toBytes (shiftBytes .p (toMatrix s))) (8 * c.val + r.val) =
      byteAt s (8 * ((c.val + r.val) % 8) + r.val)) ∧
  (∀ (s : Bytes 64) (r c : Fin 8),
    byteAt (toBytes (shiftBytes .q (toMatrix s))) (8 * c.val + r.val) =
      byteAt s (8 * ((c.val + (if r.val < 4 then 2 * r.val + 1 else 2 * r.val - 8)) % 8) + r.val))

/-- R60: MixBytes is linear, works column by column, and turns with the rows (its matrix is circulant). -/
def Obligations.MixBytesLinear : Prop :=
  (∀ a b : Matrix, mixBytes (matrixOf fun r c => gadd a[r][c] b[r][c]) =
    matrixOf fun r c => gadd (mixBytes a)[r][c] (mixBytes b)[r][c]) ∧
  (∀ (a b : Matrix) (c : Fin 8), (∀ r : Fin 8, a[r][c] = b[r][c]) →
    ∀ r : Fin 8, (mixBytes a)[r][c] = (mixBytes b)[r][c]) ∧
  (∀ (a : Matrix) (d : Fin 8), mixBytes (matrixOf fun r c => a[r + d][c]) =
    matrixOf fun r c => (mixBytes a)[r + d][c]) ∧
  (∀ (a : Matrix) (c : Fin 8), (mixBytes a)[(0 : Fin 8)][c] =
    gmul 2 a[(0 : Fin 8)][c] ^^^ gmul 2 a[(1 : Fin 8)][c] ^^^ gmul 3 a[(2 : Fin 8)][c] ^^^
    gmul 4 a[(3 : Fin 8)][c] ^^^ gmul 5 a[(4 : Fin 8)][c] ^^^ gmul 3 a[(5 : Fin 8)][c] ^^^
    gmul 5 a[(6 : Fin 8)][c] ^^^ gmul 7 a[(7 : Fin 8)][c])

/-- R62 and the glossary of spec/00_scope.md: P and Q are bijections on 64-byte strings. -/
def Obligations.PermutationsBijective : Prop :=
  Function.Bijective permP ∧ Function.Bijective permQ

/-- R65 to R68: the bytes of IV, which the spec takes from general knowledge (R65, log entry 18), and the bytes of f (R66),
of the output transformation (R67) and of the digest (R68). -/
def Obligations.CompressionBytes : Prop :=
  (∀ k : Fin 64, iv[k] = if k.val = 62 then 0x01#8 else 0x00#8) ∧
  (∀ (cv m : Bytes 64) (k : Fin 64),
    (compress cv m)[k] = (permP (xorBytes cv m))[k] ^^^ (permQ m)[k] ^^^ cv[k]) ∧
  (∀ (cv : Bytes 64) (k : Fin 32),
    (digestOf cv)[k] = byteAt (permP cv) (32 + k.val) ^^^ byteAt cv (32 + k.val))

/-! ## The commands' results (spec/43_stream_commands.md, spec/60_exceptions.md) -/

/-- R74: what INIT leaves, in every phase; the bytes of CV are those of R65. -/
def Obligations.InitResult : Prop :=
  ∀ s : State, exec .init s = .next { s with
    ovr := false,
    hash := { cv := Vector.ofFn fun k => if k.val = 62 then 0x01#8 else 0x00#8,
              buf := zeroBytes 64, blkcnt := 0, buflen := 0, pend := 0 },
    digest := zeroBytes 32, phase := .ready, result := .ok }

/-- R87: UPDATE and FINALIZE outside `READY`, in `IDLE` and in `FINALIZED`, report ERR_NOT_READY and record only the
code. -/
def Obligations.NotReadyErrors : Prop :=
  ∀ (s : State) (bitlen : BitVec 10), s.phase ≠ .ready → (Instr.update bitlen).WellFormed →
    exec (.update bitlen) s = .next { s with result := .errNotReady } ∧
    exec .finalize s = .next { s with result := .errNotReady }

/-- R86: UPDATE with a partial byte pending reports ERR_SEQ for every BITLEN and records only the code. The clause on the
FINALIZE after it is the sentence "must not alter the digest that a subsequent correct `finalize` would have produced
from the state before the invalid call", which the spec marks as derived from R89. -/
def Obligations.SequencingErrors : Prop :=
  ∀ (s : State) (bitlen : BitVec 10), s.phase = .ready → s.hash.pend ≠ 0 → (Instr.update bitlen).WellFormed →
    exec (.update bitlen) s = .next { s with result := .errSeq } ∧
    exec .finalize { s with result := .errSeq } = exec .finalize s

/-- R76, R77: an UPDATE whose whole bytes do not fill the buffer appends them and the partial byte; nothing is
absorbed. -/
def Obligations.UpdateBuffers : Prop :=
  ∀ (s : State) (bitlen : BitVec 10), s.phase = .ready → s.hash.pend = 0 → bitlen.toNat ≤ 512 →
    s.hash.buflen.toNat + bitlen.toNat / 8 < 64 →
    exec (.update bitlen) s = .next { s with
      result := .ok,
      hash := { s.hash with
        buf := Vector.ofFn fun k =>
          if s.hash.buflen.toNat ≤ k.val ∧ k.val < s.hash.buflen.toNat + bitlen.toNat / 8 then
            byteAt s.stage (k.val - s.hash.buflen.toNat)
          else if bitlen.toNat % 8 ≠ 0 ∧ k.val = s.hash.buflen.toNat + bitlen.toNat / 8 then
            byteAt s.stage (bitlen.toNat / 8)
          else s.hash.buf[k],
        buflen := BitVec.ofNat 7 (s.hash.buflen.toNat + (bitlen.toNat + 7) / 8),
        pend := BitVec.ofNat 3 (bitlen.toNat % 8) } }

/-- R76, R77: an UPDATE whose whole bytes fill the buffer absorbs one block, counts it, and goes on in an emptied buffer
(whose other bytes keep the block's, R10). -/
def Obligations.UpdateAbsorbsOneBlock : Prop :=
  ∀ (s : State) (bitlen : BitVec 10) (block : Bytes 64), s.phase = .ready → s.hash.pend = 0 →
    bitlen.toNat ≤ 512 → s.hash.buflen.toNat ≤ 63 → 64 ≤ s.hash.buflen.toNat + bitlen.toNat / 8 →
    (∀ k : Fin 64, block[k] =
      if k.val < s.hash.buflen.toNat then s.hash.buf[k] else byteAt s.stage (k.val - s.hash.buflen.toNat)) →
    exec (.update bitlen) s = .next { s with
      result := .ok,
      hash := {
        cv := compress s.hash.cv block,
        blkcnt := s.hash.blkcnt + 1,
        buf := Vector.ofFn fun k =>
          if k.val + 64 < s.hash.buflen.toNat + bitlen.toNat / 8 then
            byteAt s.stage (64 - s.hash.buflen.toNat + k.val)
          else if bitlen.toNat % 8 ≠ 0 ∧ k.val + 64 = s.hash.buflen.toNat + bitlen.toNat / 8 then
            byteAt s.stage (bitlen.toNat / 8)
          else block[k],
        buflen := BitVec.ofNat 7 (s.hash.buflen.toNat + (bitlen.toNat + 7) / 8 - 64),
        pend := BitVec.ofNat 3 (bitlen.toNat % 8) } }

/-- R79: bit j of a partial byte of b valid bits after the pad: the b high bits are the message's, the next is 1, the rest
are 0. -/
def Obligations.PadPartialByte : Prop :=
  ∀ (b : Nat) (x : Byte) (j : Nat), 1 ≤ b → b ≤ 7 → j < 8 →
    (padPartial b x).getLsbD j = if 8 - b ≤ j then x.getLsbD j else decide (j = 7 - b)

/-- R79, R81, R82: FINALIZE whose pad byte lies below offset 56 compresses one block. `pos` is where the pad byte stands
(after the last whole byte, or on the partial byte). -/
def Obligations.FinalizeOneBlock : Prop :=
  ∀ (s : State) (pos : Nat) (block : Bytes 64), s.phase = .ready →
    (if s.hash.pend = 0 then pos = s.hash.buflen.toNat else pos + 1 = s.hash.buflen.toNat) → pos < 56 →
    (∀ k : Fin 64, block[k] =
      if k.val < pos then s.hash.buf[k]
      else if k.val = pos then
        (if s.hash.pend = 0 then 0x80#8 else padPartial s.hash.pend.toNat s.hash.buf[k])
      else if k.val < 56 then 0x00#8
      else (s.hash.blkcnt + 1).extractLsb' (8 * (63 - k.val)) 8) →
    exec .finalize s = .next { s with
      result := .ok, phase := .finalized,
      digest := digestOf (compress s.hash.cv block),
      hash := { cv := zeroBytes 64, buf := zeroBytes 64, blkcnt := s.hash.blkcnt + 1, buflen := 0, pend := 0 } }

/-- R79 to R82: FINALIZE whose pad byte lies at offset 56 or above compresses two blocks, the second all zeros but for the
block count. -/
def Obligations.FinalizeTwoBlocks : Prop :=
  ∀ (s : State) (pos : Nat) (block1 block2 : Bytes 64), s.phase = .ready →
    (if s.hash.pend = 0 then pos = s.hash.buflen.toNat else pos + 1 = s.hash.buflen.toNat) →
    56 ≤ pos → pos ≤ 63 →
    (∀ k : Fin 64, block1[k] =
      if k.val < pos then s.hash.buf[k]
      else if k.val = pos then
        (if s.hash.pend = 0 then 0x80#8 else padPartial s.hash.pend.toNat s.hash.buf[k])
      else 0x00#8) →
    (∀ k : Fin 64, block2[k] =
      if k.val < 56 then 0x00#8 else (s.hash.blkcnt + 2).extractLsb' (8 * (63 - k.val)) 8) →
    exec .finalize s = .next { s with
      result := .ok, phase := .finalized,
      digest := digestOf (compress (compress s.hash.cv block1) block2),
      hash := { cv := zeroBytes 64, buf := zeroBytes 64, blkcnt := s.hash.blkcnt + 2, buflen := 0, pend := 0 } }

/-- R89: an erroring command writes exactly RESULT and BUSY. Its acceptance changes these two alone; and after every number
n of engine steps up to its completion BUSY is still 1 while steps are left, is 0 at the last, and nothing else has
changed (but the model's own counters of the command in flight, log entries 4, 5 and 6). -/
def Obligations.ErroringCommandWritesOnlyResult : Prop :=
  ∀ (w : Word) (s t : State), s.busy = false → issueCommand w s = .next t → t.result ≠ .ok →
    t = { s with result := t.result, busy := true,
                 latLeft := t.latLeft, hostTurns := t.hostTurns, draws := t.draws } ∧
    1 ≤ t.latLeft ∧
    ∀ n, n ≤ t.latLeft → ∃ u, u = Nat.iterate engineStep n t ∧
      u = { s with result := t.result, busy := decide (n < t.latLeft), latLeft := t.latLeft - n,
                   hostTurns := u.hostTurns, draws := u.draws }

/-- R16, R17, R19, R74 to R82: the frame of the three commands. No command changes STAGE, BUSY, the reset input or
anything of the window's own; UPDATE leaves PHASE, DIGEST and OVR; FINALIZE leaves OVR; and an UPDATE that completes
its effect leaves every byte of BUF outside the bytes it appends. -/
def Obligations.CommandFrame : Prop :=
  ∀ (i : Instr) (s t : State), exec i s = .next t →
    t.stage = s.stage ∧ t.busy = s.busy ∧ t.inReset = s.inReset ∧ t.latLeft = s.latLeft ∧
    t.hostTurns = s.hostTurns ∧ t.draws = s.draws ∧ t.inputs = s.inputs ∧ t.replies = s.replies ∧
    (∀ bitlen, i = .update bitlen → t.phase = s.phase ∧ t.digest = s.digest ∧ t.ovr = s.ovr ∧
      (s.hash.buflen.toNat + (bitlen.toNat + 7) / 8 ≤ 64 → ∀ k : Fin 64,
        (k.val < s.hash.buflen.toNat ∨ s.hash.buflen.toNat + (bitlen.toNat + 7) / 8 ≤ k.val) →
        t.hash.buf[k] = s.hash.buf[k])) ∧
    (i = .finalize → t.ovr = s.ovr)

/-- R104: after an UPDATE that left a partial byte, every UPDATE reports ERR_SEQ and changes nothing else, and FINALIZE
and INIT make progress. -/
def Obligations.AfterPartialByte : Prop :=
  ∀ (s t : State) (bitlen bitlen' : BitVec 10), exec (.update bitlen) s = .next t → t.result = .ok →
    bitlen.toNat % 8 ≠ 0 → (Instr.update bitlen').WellFormed →
    exec (.update bitlen') t = .next { t with result := .errSeq } ∧
    (∃ u, exec .finalize t = .next u ∧ u.phase = .finalized ∧ u.result = .ok) ∧
    (∃ u, exec .init t = .next u ∧ u.phase = .ready ∧ u.result = .ok)

/-- R105: after a FINALIZE that succeeded, CV and BUF are zero, BUFLEN and PEND are 0, and UPDATE and FINALIZE report
ERR_NOT_READY, leaving DIGEST and BLKCNT; INIT starts a new message. -/
def Obligations.AfterFinalize : Prop :=
  ∀ (s t : State) (bitlen : BitVec 10), exec .finalize s = .next t → t.result = .ok →
    (Instr.update bitlen).WellFormed →
    t.hash.Wiped ∧ t.phase = .finalized ∧
    exec (.update bitlen) t = .next { t with result := .errNotReady } ∧
    exec .finalize t = .next { t with result := .errNotReady } ∧
    ∃ u, exec .init t = .next u ∧ u.phase = .ready ∧ u.result = .ok ∧ u.digest = zeroBytes 32

/-! ## What does not matter -/

/-- R10, R79 (U12, U14): neither the stale bytes of BUF at BUFLEN and above nor the low 8 - PEND bits of a partial byte
change anything FINALIZE leaves. -/
def Obligations.FinalizeIgnoresStaleBits : Prop :=
  ∀ (s : State) (buf' : Bytes 64), s.phase = .ready → s.hash.Streaming →
    (∀ k : Fin 64, k.val < s.hash.buflen.toNat →
      if s.hash.pend ≠ 0 ∧ k.val + 1 = s.hash.buflen.toNat then
        ∀ j, 8 - s.hash.pend.toNat ≤ j → j < 8 → buf'[k].getLsbD j = s.hash.buf[k].getLsbD j
      else buf'[k] = s.hash.buf[k]) →
    exec .finalize { s with hash := { s.hash with buf := buf' } } = exec .finalize s

/-- R76, R77 (U13): the bytes of STAGE beyond an UPDATE's length are not read. -/
def Obligations.UpdateReadsOnlyItsBytes : Prop :=
  ∀ (s t : State) (stage' : Bytes 64) (bitlen : BitVec 10),
    (∀ k : Fin 64, k.val < (bitlen.toNat + 7) / 8 → stage'[k] = s.stage[k]) →
    exec (.update bitlen) s = .next t →
    exec (.update bitlen) { s with stage := stage' } = .next { t with stage := stage' }

/-- R10, R76 (U14): an UPDATE of two states whose buffers agree below BUFLEN leaves CV, BLKCNT, BUFLEN and PEND the same
and buffers that agree below the new BUFLEN. -/
def Obligations.UpdateIgnoresStaleBuffer : Prop :=
  ∀ (s : State) (buf' : Bytes 64) (bitlen : BitVec 10), s.phase = .ready → s.hash.Streaming →
    (∀ k : Fin 64, k.val < s.hash.buflen.toNat → buf'[k] = s.hash.buf[k]) →
    ∃ t t', exec (.update bitlen) s = .next t ∧
      exec (.update bitlen) { s with hash := { s.hash with buf := buf' } } = .next t' ∧
      t' = { t with hash := { t.hash with buf := t'.hash.buf } } ∧
      ∀ k : Fin 64, k.val < t.hash.buflen.toNat → t'.hash.buf[k] = t.hash.buf[k]

/-! ## Whole messages -/

/-- R83 (marked derived in the spec), R76, R77: an UPDATE of 8a + b bits is an UPDATE of 8a bits followed by one of b
bits with the rest of the bytes. -/
def Obligations.SplitUpdate : Prop :=
  ∀ (s t u : State) (stage' : Bytes 64) (a b : Nat), s.phase = .ready → s.hash.Streaming → s.hash.pend = 0 →
    8 * a + b ≤ 512 → (∀ k, k < 64 → byteAt stage' k = byteAt s.stage (a + k)) →
    exec (.update (BitVec.ofNat 10 (8 * a))) s = .next t →
    exec (.update (BitVec.ofNat 10 b)) { t with stage := stage' } = .next u →
    exec (.update (BitVec.ofNat 10 (8 * a + b))) s = .next { u with stage := s.stage }

/-- R84 (which the spec marks as derived), with R74 to R82: from any state, INIT, then UPDATEs that deliver a message
of any length in any legal split, then FINALIZE all complete, and leave the digest of the padded message `M || 1 ||
0^w || BE64(B)` and BLKCNT = B modulo 2^64. -/
def Obligations.PaddedMessageDigest : Prop :=
  ∀ (s : State) (cs : List Chunk), chunksAligned cs = true →
    ∃ s0 s1 t, exec .init s = .next s0 ∧ execChunks cs s0 = .next s1 ∧ exec .finalize s1 = .next t ∧
      t.result = .ok ∧ t.digest = hashBits (messageBits cs) ∧
      t.hash.blkcnt = BitVec.ofNat 64 (((messageBits cs).length + 65 + 511) / 512)

/-- R83 (which the spec marks as derived from R76, R77 and R79): the digest depends only on the message bits, not on
how they are split; and every bit string has a split. -/
def Obligations.StreamingEquivalence : Prop :=
  (∀ (s u s0 s1 t u0 u1 v : State) (cs ds : List Chunk), chunksAligned cs = true → chunksAligned ds = true →
    messageBits cs = messageBits ds →
    exec .init s = .next s0 → execChunks cs s0 = .next s1 → exec .finalize s1 = .next t →
    exec .init u = .next u0 → execChunks ds u0 = .next u1 → exec .finalize u1 = .next v →
    t.digest = v.digest) ∧
  (∀ m : List Bool, ∃ cs, chunksAligned cs = true ∧ messageBits cs = m)

/-! ## The step of the machine -/

/-- R32, R70: when the next input is an aligned CMD write of a word that decodes to i, no command is in flight and reset is
not asserted, the step takes the input, runs exec of i, and accepts: BUSY is set, the engine gets LAT steps, and the
write is acknowledged. -/
def Obligations.StepRunsDecodedCommand : Prop :=
  ∀ (s : State) (w : Word) (i : Instr) (rest : List Input),
    s.inputs = .access (.write 0x000 4 w) :: rest → s.busy = false → s.inReset = false → decode w = .ok i →
    ∃ t, exec i (takeInput rest s) = .next t ∧ step s = .next (reply .done (accept w (takeInput rest s) t)) ∧
      (accept w (takeInput rest s) t) = { t with
        busy := true, latLeft := Config.extraLatency w s.hash.buflen s.hash.pend + 1,
        hostTurns := Config.hostTurns t.draws, draws := t.draws + 1 }

/-- R73, R88: an accepted word that is not legal completes with ERR_ILLEGAL; PHASE, the HashState, DIGEST, OVR and STAGE
are unchanged. -/
def Obligations.IllegalWordAccepted : Prop :=
  ∀ (s : State) (w : Word) (rest : List Input),
    s.inputs = .access (.write 0x000 4 w) :: rest → s.busy = false → s.inReset = false → legal w = false →
    step s = .next (reply .done (accept w (takeInput rest s) { takeInput rest s with result := .errIllegal }))

/-- R72: a CMD write while BUSY = 1 is dropped whatever its word, its only effect is OVR, and the command in flight
completes with the RESULT it had. -/
def Obligations.CommandWhileBusyDropped : Prop :=
  ∀ (s : State) (w : Word) (rest : List Input),
    s.inputs = .access (.write 0x000 4 w) :: rest → s.busy = true → s.hostTurns ≠ 0 → s.inReset = false →
    step s = .next (reply .done { takeInput rest s with ovr := true }) ∧
    (engineStep (reply .done { takeInput rest s with ovr := true })).result = s.result

/-- R92: the first condition that applies is the one reported. -/
def Obligations.ErrorPriority : Prop :=
  (∀ (w : Word) (s : State), s.busy = true → issueCommand w s = .next { s with ovr := true }) ∧
  (∀ (w : Word) (s : State), s.busy = false → legal w = false →
    issueCommand w s = .next (accept w s { s with result := .errIllegal })) ∧
  (∀ (bitlen : BitVec 10) (s : State), s.busy = false → bitlen.toNat ≤ 512 → s.phase ≠ .ready →
    issueCommand (encode (.update bitlen)) s =
      .next (accept (encode (.update bitlen)) s { s with result := .errNotReady })) ∧
  (∀ s : State, s.busy = false → s.phase ≠ .ready →
    issueCommand (encode .finalize) s = .next (accept (encode .finalize) s { s with result := .errNotReady })) ∧
  (∀ (bitlen : BitVec 10) (s : State), s.busy = false → bitlen.toNat ≤ 512 → s.phase = .ready → s.hash.pend ≠ 0 →
    issueCommand (encode (.update bitlen)) s =
      .next (accept (encode (.update bitlen)) s { s with result := .errSeq }))

/-- R20, R71: an engine step is taken only while BUSY = 1, counts the command's LAT steps down, and completes it at
the last, changing nothing but BUSY (and the model's own counters). When the engine gets its turn is the model's
scheduling (log entry 5). -/
def Obligations.EngineStepOnlyCompletes : Prop :=
  ∀ s : State, s.busy = true → (s.inputs = [] ∨ s.hostTurns = 0) →
    ∃ t, step s = .next t ∧
      t = { s with busy := t.busy, latLeft := t.latLeft, hostTurns := t.hostTurns, draws := t.draws } ∧
      t.latLeft = s.latLeft - 1 ∧ (t.busy = true ↔ 1 < s.latLeft)

/-- R71 (weak fairness), R20: a command in flight completes, whatever the host's waiting transactions are; without a
reset among them its results stand when it does. Fairness is built into the model's scheduling (log entry 5). -/
def Obligations.CommandCompletes : Prop :=
  ∀ s : State, s.InWindow → ∃ k t, Host.Core.run core k s = .next t ∧ t.busy = false ∧
    (s.busy = true → (∀ i ∈ s.inputs, i ≠ .assertReset ∧ i ≠ .deassertReset) →
      t.hash = s.hash ∧ t.phase = s.phase ∧ t.digest = s.digest ∧ t.result = s.result)

/-- R35, R45: a host that polls STATUS until bit 0 reads 0 gets to the end of its poll, whatever transactions wait behind
it: every word it reads before the last has bit 0 = 1, the last is the completed command's STATUS, and the transactions
behind the poll wait untouched. POLL as an input and the fairness are the model's (log entries 5 and 17). -/
def Obligations.PollEndsWithResult : Prop :=
  ∀ (s : State) (rest : List Input), s.inputs = .poll :: rest → s.inReset = false →
    ∃ k t ws, Host.Core.run core k s = .next t ∧ t.inputs = rest ∧ t.busy = false ∧ t.inReset = false ∧
      t.hash = s.hash ∧ t.phase = s.phase ∧ t.digest = s.digest ∧ t.stage = s.stage ∧
      t.result = s.result ∧ t.ovr = s.ovr ∧
      (∀ w ∈ ws, w.getLsbD 0 = true) ∧
      t.replies = s.replies ++ List.map Reply.data ws ++ [.data (statusWord { s with busy := false })]

/-- R14, R20, R31, R82, R98: every step of the machine keeps the invariant. The clause on asserted reset is the
model's choice (log entry 9). -/
def Obligations.InvariantKept : Prop :=
  ∀ s t : State, s.Inv → step s = .next t → t.Inv

/-- R25: the state after reset meets the invariant. -/
def Obligations.InvariantAtReset : Prop :=
  State.reset.Inv

/-- R87, R93: the core never halts or locks up. With every waiting transaction in the window a step answers a next
state, and the window still holds only such transactions; and a step that does stop was given a transaction outside
it (R26). The stop outside the window is the model's (log entry 10). -/
def Obligations.NeverLocksUp : Prop :=
  (∀ s : State, s.InWindow → ∃ t, step s = .next t ∧ t.InWindow) ∧
  (∀ (s : State) (r : Fault), step s = .fault r → ∃ off width v rest, windowSize ≤ off ∧
    (s.inputs = .access (.read off width) :: rest ∨ s.inputs = .access (.write off width v) :: rest)) ∧
  (∀ (s : State) (r : Refusal), step s ≠ .refused r)

/-! ## The register window (spec/20_memory.md, spec/70_reset_and_hazards.md) -/

/-- R30: the fields of STATUS, its reserved bits, and that a write to it is ignored. The clause on its reset value is the
sentence "Its reset value is 0x00000000", which the spec marks as derived from R25. -/
def Obligations.StatusFields : Prop :=
  (∀ s : State, s.inReset = false → s.busy = false →
    (memRead 0x004 s).getLsbD 0 = false ∧
    (memRead 0x004 s).extractLsb' 1 2 =
      (if s.phase = .idle then 0#2 else if s.phase = .ready then 1#2 else 2#2) ∧
    (memRead 0x004 s).getLsbD 3 = s.ovr ∧
    (memRead 0x004 s).extractLsb' 4 4 =
      (if s.result = .ok then 0#4 else if s.result = .errSeq then 1#4
       else if s.result = .errNotReady then 2#4 else 3#4) ∧
    (memRead 0x004 s).extractLsb' 8 7 = s.hash.buflen ∧
    (memRead 0x004 s).getLsbD 15 = false ∧
    (memRead 0x004 s).extractLsb' 16 3 = s.hash.pend ∧
    (memRead 0x004 s).extractLsb' 19 13 = 0) ∧
  (∀ s : State, s.inReset = false → s.busy = true → (memRead 0x004 s).getLsbD 0 = true) ∧
  memRead 0x004 State.reset = 0x00000000#32 ∧
  (∀ (s : State) (v : Word), memWrite 0x004 v s = .next s)

/-- R29, R31: the byte lanes of the STAGE and DIGEST words and the two halves of BLKCNT, read while BUSY = 0. -/
def Obligations.ReadLanes : Prop :=
  ∀ s : State, s.inReset = false → s.busy = false →
    (∀ w k : Nat, w < 16 → k < 4 →
      (memRead (0x100 + 4 * w) s).extractLsb' (8 * k) 8 = byteAt s.stage (4 * w + k)) ∧
    (∀ w k : Nat, w < 8 → k < 4 →
      (memRead (0x180 + 4 * w) s).extractLsb' (8 * k) 8 = byteAt s.digest (4 * w + k)) ∧
    (memRead 0x00C s ++ memRead 0x008 s) = s.hash.blkcnt

/-- R32, R33: a STAGE write, busy or not, is read back, leaves every other STAGE word and all other state, and writing it
twice is writing it once. -/
def Obligations.StageWriteThenRead : Prop :=
  ∀ (s : State) (w : Nat) (v : Word), s.inReset = false → w < 16 →
    ∃ t, memWrite (0x100 + 4 * w) v s = .next t ∧ t = { s with stage := t.stage } ∧
      memRead (0x100 + 4 * w) t = v ∧
      (∀ k, k < 4 → byteAt t.stage (4 * w + k) = v.extractLsb' (8 * k) 8) ∧
      (∀ w', w' < 16 → w' ≠ w → memRead (0x100 + 4 * w') t = memRead (0x100 + 4 * w') s) ∧
      memWrite (0x100 + 4 * w) v t = .next t

/-- R27, R32, R33: a write to any aligned offset but CMD and STAGE has no effect; CMD and every reserved offset read 0,
busy or not. -/
def Obligations.ReservedAndReadOnly : Prop :=
  (∀ (s : State) (off : Nat) (v : Word), off % 4 = 0 → off ≠ 0x000 → (off < 0x100 ∨ 0x140 ≤ off) →
    memWrite off v s = .next s) ∧
  (∀ (s : State) (off : Nat), s.inReset = false → off % 4 = 0 →
    (off = 0 ∨ (0x010 ≤ off ∧ off < 0x100) ∨ (0x140 ≤ off ∧ off < 0x180) ∨ (0x1A0 ≤ off ∧ off < 0x200)) →
    memRead off s = 0x00000000#32)

/-- R101: what a read returns while BUSY = 1: bit 0 of STATUS is 1, its other bits, BLKCNT and DIGEST are a fresh
free value, STAGE is its content; and the step that reads draws a new free value for the next read. The draw is a
free value (log entry 6). -/
def Obligations.ReadsWhileBusy : Prop :=
  ∀ s : State, s.inReset = false → s.busy = true →
    memRead 0x004 s = Config.draw s.draws ||| 1#32 ∧
    memRead 0x008 s = Config.draw s.draws ∧ memRead 0x00C s = Config.draw s.draws ∧
    (∀ w, w < 8 → memRead (0x180 + 4 * w) s = Config.draw s.draws) ∧
    (∀ w k, w < 16 → k < 4 →
      (memRead (0x100 + 4 * w) s).extractLsb' (8 * k) 8 = byteAt s.stage (4 * w + k)) ∧
    memRead 0x000 s = 0x00000000#32 ∧
    (∀ off rest, off < 0x200 → off % 4 = 0 → s.inputs = .access (.read off 4) :: rest → s.hostTurns ≠ 0 →
      ∃ t, step s = .next t ∧ t.draws = s.draws + 1 ∧ t.replies = s.replies ++ [.data (memRead off s)])

/-- R28, R31, R33, R91: a read, of any width at any offset of the window, changes no state of the core, and gets exactly one
reply: the register's value for an aligned 32-bit read, busy or not, and a bus error for any other. That a read of
another form gets the bus error while reset is asserted too is the model's choice (log entry 11). -/
def Obligations.ReadsChangeNothing : Prop :=
  ∀ (s : State) (off width : Nat) (rest : List Input),
    s.inputs = .access (.read off width) :: rest → engineTurn s = false → off < 0x200 →
    ∃ t, step s = .next t ∧
      t = { s with hostTurns := t.hostTurns, draws := t.draws, inputs := rest, replies := t.replies } ∧
      t.replies = s.replies ++ [if width = 4 ∧ off % 4 = 0 then .data (memRead off s) else .busError]

/-- R91, R28: an access that is not an aligned 32-bit one gets a bus error, a read gets no data, and the core changes no
state. That it does so while reset is asserted, where R91 and R98 meet, is the model's choice (log entry 11). -/
def Obligations.BusErrors : Prop :=
  ∀ (s : State) (off width : Nat) (v : Word) (rest : List Input) (a : Access),
    s.inputs = .access a :: rest → (a = .read off width ∨ a = .write off width v) → engineTurn s = false →
    off < 0x200 → (width ≠ 4 ∨ off % 4 ≠ 0) →
    step s = .next { s with inputs := rest, hostTurns := s.hostTurns - 1, replies := s.replies ++ [.busError] }

/-- R98, R25: a reset edge puts every piece of state at its reset value, whatever it was and whatever command was in
flight; what waits at the window and what the host has read are not the core's. That the asserting edge does so too
is the model's choice (log entry 9). -/
def Obligations.ResetEvent : Prop :=
  ∀ (s : State) (rest : List Input) (edge : Input), s.inputs = edge :: rest →
    (edge = .assertReset ∨ edge = .deassertReset) → engineTurn s = false →
    ∃ t, step s = .next t ∧
      t.hash.cv = zeroBytes 64 ∧ t.hash.buf = zeroBytes 64 ∧ t.hash.blkcnt = 0 ∧ t.hash.buflen = 0 ∧
      t.hash.pend = 0 ∧ t.phase = .idle ∧ t.digest = zeroBytes 32 ∧ t.stage = zeroBytes 64 ∧
      t.result = .ok ∧ t.ovr = false ∧ t.busy = false ∧ (t.inReset = true ↔ edge = .assertReset) ∧
      t.inputs = rest ∧ t.replies = s.replies

/-- R98: while reset is asserted an aligned access has no effect, and a read returns a free value. The value read is
a free value (log entry 6). -/
def Obligations.AccessDuringReset : Prop :=
  ∀ (s : State) (off : Nat) (v : Word) (rest : List Input), s.inReset = true → engineTurn s = false →
    off < 0x200 → off % 4 = 0 →
    (s.inputs = .access (.read off 4) :: rest → step s = .next { s with
      inputs := rest, hostTurns := s.hostTurns - 1, draws := s.draws + 1,
      replies := s.replies ++ [.data (Config.draw s.draws)] }) ∧
    (s.inputs = .access (.write off 4 v) :: rest → step s = .next { s with
      inputs := rest, hostTurns := s.hostTurns - 1, replies := s.replies ++ [.done] })

/-- R37, R103: a STAGE write after a command's acceptance, even while it is in flight, changes STAGE and nothing the command
wrote or will report. -/
def Obligations.StageWriteAfterAcceptance : Prop :=
  ∀ (s : State) (off : Nat) (v : Word) (rest : List Input), s.inputs = .access (.write off 4 v) :: rest →
    s.inReset = false → engineTurn s = false → 0x100 ≤ off → off < 0x140 → off % 4 = 0 →
    ∃ t, step s = .next t ∧
      t = { s with stage := t.stage, inputs := rest, hostTurns := s.hostTurns - 1,
                   replies := s.replies ++ [.done] } ∧
      (∀ k : Fin 64, t.stage[k] =
        if off ≤ 0x100 + k.val ∧ 0x100 + k.val < off + 4 then v.extractLsb' (8 * (0x100 + k.val - off)) 8
        else s.stage[k])

/-- R106: how many engine steps an accepted command takes depends on the command word, BUFLEN and PEND alone; no byte
of STAGE, BUF or CV and nothing else of the state matters. LAT is a free value (log entry 4). -/
def Obligations.LatencyIsDataIndependent : Prop :=
  ∀ (w : Word) (s u t v : State), s.busy = false → u.busy = false →
    s.hash.buflen = u.hash.buflen → s.hash.pend = u.hash.pend →
    issueCommand w s = .next t → issueCommand w u = .next v →
    t.latLeft = v.latLeft ∧ 1 ≤ t.latLeft

/-- R6, R26: the window is 512 bytes at a 512-byte aligned base, and exactly its bus addresses reach it. The base is
a free value (log entry 3). -/
def Obligations.WindowAddresses : Prop :=
  groestlBase % 512 = 0 ∧
  (∀ off, off < 0x200 → windowOffset (busAddress off) = some off) ∧
  (∀ addr off, windowOffset addr = some off → off < 0x200 ∧ addr = busAddress off)

/-! ## Whole-machine rules -/

/-- R19, R90: OVR is set by a CMD write that is dropped because a command is in flight, whatever its word, and by nothing
else; it is cleared by reset and by the acceptance of INIT, and by nothing else. That the asserting edge of reset clears
it, and not the deasserting one alone, is the model's choice (log entry 9). -/
def Obligations.OverrunFlag : Prop :=
  ∀ s t : State, step s = .next t →
    (s.ovr = false → t.ovr = true → s.busy = true ∧ s.inReset = false ∧
      ∃ w rest, s.inputs = .access (.write 0x000 4 w) :: rest) ∧
    (s.ovr = true → t.ovr = false →
      (∃ rest, s.inputs = .assertReset :: rest ∨ s.inputs = .deassertReset :: rest) ∨
      (s.busy = false ∧ ∃ rest, s.inputs = .access (.write 0x000 4 0x00000001#32) :: rest)) ∧
    (∀ w rest, s.inputs = .access (.write 0x000 4 w) :: rest → s.busy = true → s.inReset = false →
      s.hostTurns ≠ 0 → t.ovr = true ∧ t.result = s.result) ∧
    (∀ rest, s.inputs = .assertReset :: rest ∨ s.inputs = .deassertReset :: rest → engineTurn s = false →
      t.ovr = false) ∧
    (∀ rest, s.inputs = .access (.write 0x000 4 0x00000001#32) :: rest → s.busy = false → s.inReset = false →
      t.ovr = false)

/-- R15, R74, R78, R82, R98: PHASE changes only to IDLE by reset, to READY by an accepted INIT, and from READY to FINALIZED
by an accepted FINALIZE. -/
def Obligations.PhaseMachine : Prop :=
  ∀ s t : State, step s = .next t → t.phase ≠ s.phase →
    (t.phase = .idle ∧ ∃ rest, s.inputs = .assertReset :: rest ∨ s.inputs = .deassertReset :: rest) ∨
    (t.phase = .ready ∧ s.busy = false ∧ ∃ rest, s.inputs = .access (.write 0x000 4 0x00000001#32) :: rest) ∨
    (t.phase = .finalized ∧ s.phase = .ready ∧ s.busy = false ∧
      ∃ rest, s.inputs = .access (.write 0x000 4 0x00000003#32) :: rest)

/-- R9, R15 to R20: who writes what. But for an edge of reset (R98, log entry 9), the HashState changes only by the
acceptance of a legal command; DIGEST and PHASE only by the acceptance of INIT or FINALIZE; RESULT only by an accepted
word; STAGE only by a host write to its offsets; OVR only by a CMD write; BUSY goes to 1 by an accepted CMD write and by
nothing else, and to 0 only by the engine's last step, which changes nothing else. -/
def Obligations.WhoWritesWhat : Prop :=
  ∀ s t : State, step s = .next t →
    (engineTurn s = false ∧ ∃ rest, s.inputs = .assertReset :: rest ∨ s.inputs = .deassertReset :: rest) ∨
    ((t.hash ≠ s.hash → s.busy = false ∧
        ∃ w rest, legal w = true ∧ s.inputs = .access (.write 0x000 4 w) :: rest) ∧
     (t.digest ≠ s.digest → s.busy = false ∧ ∃ w rest, (w = 0x00000001#32 ∨ w = 0x00000003#32) ∧
        s.inputs = .access (.write 0x000 4 w) :: rest) ∧
     (t.phase ≠ s.phase → s.busy = false ∧ ∃ w rest, (w = 0x00000001#32 ∨ w = 0x00000003#32) ∧
        s.inputs = .access (.write 0x000 4 w) :: rest) ∧
     (t.result ≠ s.result → s.busy = false ∧ ∃ w rest, s.inputs = .access (.write 0x000 4 w) :: rest) ∧
     (t.stage ≠ s.stage → ∃ off v rest, 0x100 ≤ off ∧ off < 0x140 ∧
        s.inputs = .access (.write off 4 v) :: rest) ∧
     (t.ovr ≠ s.ovr → ∃ w rest, s.inputs = .access (.write 0x000 4 w) :: rest) ∧
     (s.busy = false → (t.busy = true ↔
        s.inReset = false ∧ ∃ w rest, s.inputs = .access (.write 0x000 4 w) :: rest)) ∧
     (s.busy = true → t.busy = false → engineTurn s = true ∧ s.latLeft ≤ 1 ∧
        t = { s with busy := false, latLeft := 0, hostTurns := t.hostTurns, draws := t.draws }) ∧
     t.inReset = s.inReset)

/-- R21: CV and BUF are hidden. Two states that differ in nothing else stay so under every step, and give the host the
same replies, until a FINALIZE in READY is accepted. That a free value read while BUSY = 1 or while reset is asserted is
the same in both, and that both interleave alike, is the model's choice: the draws depend on a count alone, where the
spec leaves open whether they depend on the core's state (log entries 5 and 6). -/
def Obligations.ChainingValueIsHidden : Prop :=
  ∀ (s t : State) (cv' buf' : Bytes 64), step s = .next t →
    ∃ t', step { s with hash := { s.hash with cv := cv', buf := buf' } } = .next t' ∧
      t'.replies = t.replies ∧
      (t' = { t with hash := { t.hash with cv := t'.hash.cv, buf := t'.hash.buf } } ∨
       (s.busy = false ∧ s.phase = .ready ∧
         (∃ rest, s.inputs = .access (.write 0x000 4 0x00000003#32) :: rest) ∧
         t' = { t with digest := t'.digest }))

/-! ## Host syntax (spec/30_encoding.md) -/

/-- R45, R46: what every host statement but STAGE assembles to, and what an assembler refuses. The command statements are
one aligned write of their word to CMD, WR and RD one access, POLL the one input that stands for its loop (log entry
17); ABSORB, INITW and FINALW are a command and a POLL, RDDIGEST the eight reads of DIGEST, and statements in a row are
their inputs in a row. Refused are UPDATE and ABSORB above 512 bits, WR and RD at a bad offset, and STAGE of more than 64
bytes. That WR assembles at offset 0x000 with any value is the model's choice (log entry 19). -/
def Obligations.HostStatements : Prop :=
  assembleBasic .init = .ok (.access (.write 0x000 4 (encode .init))) ∧
  assembleBasic .finalize = .ok (.access (.write 0x000 4 (encode .finalize))) ∧
  (∀ n, n ≤ 512 → assembleBasic (.update n) =
    .ok (.access (.write 0x000 4 (encode (.update (BitVec.ofNat 10 n))))) ) ∧
  (∀ n, 512 < n → assembleBasic (.update n) = .error .updateTooLong) ∧
  (∀ w, assembleBasic (.cmd w) = .ok (.access (.write 0x000 4 w))) ∧
  (∀ off v, off % 4 = 0 → off ≤ 0x1FC → assembleBasic (.wr off v) = .ok (.access (.write off 4 v)) ∧
    assembleBasic (.rd off) = .ok (.access (.read off 4))) ∧
  (∀ off v, (off % 4 ≠ 0 ∨ 0x1FC < off) → assembleBasic (.wr off v) = .error .badOffset ∧
    assembleBasic (.rd off) = .error .badOffset) ∧
  assembleBasic .poll = .ok .poll ∧
  (∀ b, assemble [.basic b] =
    match assembleBasic b with
    | .ok i => .ok [i]
    | .error e => .error e) ∧
  (∀ n, n ≤ 512 → assemble [.absorb n] =
    .ok [.access (.write 0x000 4 (encode (.update (BitVec.ofNat 10 n)))), .poll]) ∧
  (∀ n, 512 < n → assemble [.absorb n] = .error .updateTooLong) ∧
  assemble [.initw] = .ok [.access (.write 0x000 4 (encode .init)), .poll] ∧
  assemble [.finalw] = .ok [.access (.write 0x000 4 (encode .finalize)), .poll] ∧
  assemble [.rddigest] = .ok [.access (.read 0x180 4), .access (.read 0x184 4), .access (.read 0x188 4),
    .access (.read 0x18C 4), .access (.read 0x190 4), .access (.read 0x194 4), .access (.read 0x198 4),
    .access (.read 0x19C 4)] ∧
  (∀ bytes : List Byte, 64 < bytes.length → assemble [.stage bytes] = .error .stageTooLong) ∧
  (∀ (p q : List Stmt) (is js : List Input), assemble p = .ok is → assemble q = .ok js →
    assemble (p ++ q) = .ok (is ++ js))

/-- R46, R29: the STAGE pseudo-instruction, run from a state that waits for the host, leaves its bytes at the start of STAGE
in order, zeros in what is left of its last word, and the rest of STAGE and everything else of the core as it was. -/
def Obligations.StagePseudoInstruction : Prop :=
  ∀ (s : State) (bytes : List Byte), bytes.length ≤ 64 → s.inReset = false → s.busy = false →
    assemble [.stage bytes] = .ok s.inputs →
    ∃ t, Host.Core.run core s.inputs.length s = .next t ∧ t.inputs = [] ∧
      t = { s with stage := t.stage, inputs := [], hostTurns := t.hostTurns, replies := t.replies } ∧
      ∀ k : Fin 64, t.stage[k] =
        if k.val < bytes.length then bytes.getD k.val 0
        else if k.val < 4 * ((bytes.length + 3) / 4) then 0x00#8 else s.stage[k]
end

