-- ==== Sys2Proof/Laws/Bytes.lean ====
section
/-! SUPPORT. The bytes of the byte-string and matrix operations: one lemma per operation, saying what stands at each
index. Later proofs cite these and do not unfold the operations. -/

namespace Sys2Proof.Machine

theorem byteAt_of_lt {n : Nat} (s : Bytes n) (k : Nat) (h : k < n) : byteAt s k = s[k] := by
  simp [byteAt, h]

theorem byteAt_of_le {n : Nat} (s : Bytes n) (k : Nat) (h : n ≤ k) : byteAt s k = 0x00#8 := by
  simp [byteAt, Nat.not_lt.mpr h]

@[simp] theorem getElem_setByte {n : Nat} (s : Bytes n) (k : Nat) (b : Byte) (j : Nat) (h : j < n) :
    (setByte s k b)[j] = if j = k then b else s[j] := by
  simp [setByte]

@[simp] theorem getElem_zeroFill {n : Nat} (s : Bytes n) (lo hi j : Nat) (h : j < n) :
    (zeroFill s lo hi)[j] = if lo ≤ j ∧ j < hi then 0x00#8 else s[j] := by
  simp [zeroFill]

@[simp] theorem getElem_be64 (n : BitVec 64) (j : Nat) (h : j < 8) :
    (be64 n)[j] = n.extractLsb' (8 * (7 - j)) 8 := by
  simp [be64]

@[simp] theorem getElem_putLength (s : Bytes 64) (n : BitVec 64) (j : Nat) (h : j < 64) :
    (putLength s n)[j] = if 56 ≤ j then n.extractLsb' (8 * (63 - j)) 8 else s[j] := by
  by_cases h56 : 56 ≤ j
  · have : 7 - (j - 56) = 63 - j := by omega
    simp [putLength, h56, byteAt_of_lt (be64 n) (j - 56) (by omega), this]
  · simp [putLength, h56]

@[simp] theorem getElem_setBusWord {n : Nat} (s : Bytes n) (w : Nat) (v : Word) (j : Nat) (h : j < n) :
    (setBusWord s w v)[j] = if j / 4 = w then lane v (j % 4) else s[j] := by
  simp [setBusWord]

@[simp] theorem getElem_xorBytes {n : Nat} (a b : Bytes n) (j : Nat) (h : j < n) :
    (xorBytes a b)[j] = a[j] ^^^ b[j] := by
  simp [xorBytes, gadd]

@[simp] theorem getElem_matrixOf (f : Fin 8 → Fin 8 → Byte) (r c : Nat) (hr : r < 8) (hc : c < 8) :
    (matrixOf f)[r][c] = f ⟨r, hr⟩ ⟨c, hc⟩ := by
  simp [matrixOf]

@[simp] theorem getElem_toMatrix (s : Bytes 64) (r c : Nat) (hr : r < 8) (hc : c < 8) :
    (toMatrix s)[r][c] = s[8 * c + r] := by
  simp [toMatrix]

@[simp] theorem getElem_toBytes (a : Matrix) (k : Nat) (h : k < 64) :
    (toBytes a)[k] = (a[k % 8])[k / 8] := by
  simp [toBytes]

@[simp] theorem getElem_trunc (x : Bytes 64) (k : Nat) (h : k < 32) : (trunc x)[k] = x[32 + k] := by
  simp [trunc]

/-- Two matrices are equal when they agree in every row and column. -/
theorem matrix_ext (a b : Matrix) (h : ∀ (r c : Nat) (hr : r < 8) (hc : c < 8), a[r][c] = b[r][c]) : a = b := by
  apply Vector.ext
  intro r hr
  apply Vector.ext
  intro c hc
  exact h r c hr hc

/-- The four lanes of a bus word are the bytes it was made of (R29). -/
theorem lane_laneWord (b0 b1 b2 b3 : Byte) :
    lane (laneWord b0 b1 b2 b3) 0 = b0 ∧ lane (laneWord b0 b1 b2 b3) 1 = b1 ∧
    lane (laneWord b0 b1 b2 b3) 2 = b2 ∧ lane (laneWord b0 b1 b2 b3) 3 = b3 := by
  refine ⟨?_, ?_, ?_, ?_⟩ <;>
  · apply BitVec.eq_of_getLsbD_eq
    intro i hi
    simp only [lane, laneWord, BitVec.getLsbD_extractLsb', BitVec.getLsbD_or, BitVec.getLsbD_shiftLeft,
      BitVec.getLsbD_setWidth]
    have : i < 8 := hi
    interval_cases i <;> simp

end Sys2Proof.Machine
end

