-- ==== Sys2Proof/Laws/State.lean ====
section
/-! SUPPORT. One lemma per field per named update of the state and of the HashState, each true by unfolding, so that no
later proof unfolds a record update. -/

namespace Sys2Proof.Machine

@[simp] theorem raise_hash (e : ResultCode) (s : State) : (raise e s).hash = s.hash := rfl
@[simp] theorem raise_phase (e : ResultCode) (s : State) : (raise e s).phase = s.phase := rfl
@[simp] theorem raise_digest (e : ResultCode) (s : State) : (raise e s).digest = s.digest := rfl
@[simp] theorem raise_stage (e : ResultCode) (s : State) : (raise e s).stage = s.stage := rfl
@[simp] theorem raise_result (e : ResultCode) (s : State) : (raise e s).result = e := rfl
@[simp] theorem raise_ovr (e : ResultCode) (s : State) : (raise e s).ovr = s.ovr := rfl
@[simp] theorem raise_busy (e : ResultCode) (s : State) : (raise e s).busy = s.busy := rfl
@[simp] theorem raise_inReset (e : ResultCode) (s : State) : (raise e s).inReset = s.inReset := rfl
@[simp] theorem raise_latLeft (e : ResultCode) (s : State) : (raise e s).latLeft = s.latLeft := rfl
@[simp] theorem raise_hostTurns (e : ResultCode) (s : State) : (raise e s).hostTurns = s.hostTurns := rfl
@[simp] theorem raise_draws (e : ResultCode) (s : State) : (raise e s).draws = s.draws := rfl
@[simp] theorem raise_inputs (e : ResultCode) (s : State) : (raise e s).inputs = s.inputs := rfl
@[simp] theorem raise_replies (e : ResultCode) (s : State) : (raise e s).replies = s.replies := rfl

@[simp] theorem accept_hash (w : Word) (s t : State) : (accept w s t).hash = t.hash := rfl
@[simp] theorem accept_phase (w : Word) (s t : State) : (accept w s t).phase = t.phase := rfl
@[simp] theorem accept_digest (w : Word) (s t : State) : (accept w s t).digest = t.digest := rfl
@[simp] theorem accept_stage (w : Word) (s t : State) : (accept w s t).stage = t.stage := rfl
@[simp] theorem accept_result (w : Word) (s t : State) : (accept w s t).result = t.result := rfl
@[simp] theorem accept_ovr (w : Word) (s t : State) : (accept w s t).ovr = t.ovr := rfl
@[simp] theorem accept_busy (w : Word) (s t : State) : (accept w s t).busy = true := rfl
@[simp] theorem accept_inReset (w : Word) (s t : State) : (accept w s t).inReset = t.inReset := rfl
@[simp] theorem accept_latLeft (w : Word) (s t : State) : (accept w s t).latLeft = latency w s.hash.buflen s.hash.pend := rfl
@[simp] theorem accept_hostTurns (w : Word) (s t : State) : (accept w s t).hostTurns = Config.hostTurns t.draws := rfl
@[simp] theorem accept_draws (w : Word) (s t : State) : (accept w s t).draws = t.draws + 1 := rfl
@[simp] theorem accept_inputs (w : Word) (s t : State) : (accept w s t).inputs = t.inputs := rfl
@[simp] theorem accept_replies (w : Word) (s t : State) : (accept w s t).replies = t.replies := rfl

@[simp] theorem dropCommand_hash (s : State) : (dropCommand s).hash = s.hash := rfl
@[simp] theorem dropCommand_phase (s : State) : (dropCommand s).phase = s.phase := rfl
@[simp] theorem dropCommand_digest (s : State) : (dropCommand s).digest = s.digest := rfl
@[simp] theorem dropCommand_stage (s : State) : (dropCommand s).stage = s.stage := rfl
@[simp] theorem dropCommand_result (s : State) : (dropCommand s).result = s.result := rfl
@[simp] theorem dropCommand_ovr (s : State) : (dropCommand s).ovr = true := rfl
@[simp] theorem dropCommand_busy (s : State) : (dropCommand s).busy = s.busy := rfl
@[simp] theorem dropCommand_inReset (s : State) : (dropCommand s).inReset = s.inReset := rfl
@[simp] theorem dropCommand_latLeft (s : State) : (dropCommand s).latLeft = s.latLeft := rfl
@[simp] theorem dropCommand_hostTurns (s : State) : (dropCommand s).hostTurns = s.hostTurns := rfl
@[simp] theorem dropCommand_draws (s : State) : (dropCommand s).draws = s.draws := rfl
@[simp] theorem dropCommand_inputs (s : State) : (dropCommand s).inputs = s.inputs := rfl
@[simp] theorem dropCommand_replies (s : State) : (dropCommand s).replies = s.replies := rfl

@[simp] theorem engineStep_hash (s : State) : (engineStep s).hash = s.hash := rfl
@[simp] theorem engineStep_phase (s : State) : (engineStep s).phase = s.phase := rfl
@[simp] theorem engineStep_digest (s : State) : (engineStep s).digest = s.digest := rfl
@[simp] theorem engineStep_stage (s : State) : (engineStep s).stage = s.stage := rfl
@[simp] theorem engineStep_result (s : State) : (engineStep s).result = s.result := rfl
@[simp] theorem engineStep_ovr (s : State) : (engineStep s).ovr = s.ovr := rfl
@[simp] theorem engineStep_busy (s : State) : (engineStep s).busy = decide (1 < s.latLeft) := rfl
@[simp] theorem engineStep_inReset (s : State) : (engineStep s).inReset = s.inReset := rfl
@[simp] theorem engineStep_latLeft (s : State) : (engineStep s).latLeft = s.latLeft - 1 := rfl
@[simp] theorem engineStep_hostTurns (s : State) : (engineStep s).hostTurns = Config.hostTurns s.draws := rfl
@[simp] theorem engineStep_draws (s : State) : (engineStep s).draws = s.draws + 1 := rfl
@[simp] theorem engineStep_inputs (s : State) : (engineStep s).inputs = s.inputs := rfl
@[simp] theorem engineStep_replies (s : State) : (engineStep s).replies = s.replies := rfl

@[simp] theorem resetCore_hash (line : Bool) (s : State) : (resetCore line s).hash = HashState.reset := rfl
@[simp] theorem resetCore_phase (line : Bool) (s : State) : (resetCore line s).phase = .idle := rfl
@[simp] theorem resetCore_digest (line : Bool) (s : State) : (resetCore line s).digest = zeroBytes 32 := rfl
@[simp] theorem resetCore_stage (line : Bool) (s : State) : (resetCore line s).stage = zeroBytes 64 := rfl
@[simp] theorem resetCore_result (line : Bool) (s : State) : (resetCore line s).result = .ok := rfl
@[simp] theorem resetCore_ovr (line : Bool) (s : State) : (resetCore line s).ovr = false := rfl
@[simp] theorem resetCore_busy (line : Bool) (s : State) : (resetCore line s).busy = false := rfl
@[simp] theorem resetCore_inReset (line : Bool) (s : State) : (resetCore line s).inReset = line := rfl
@[simp] theorem resetCore_latLeft (line : Bool) (s : State) : (resetCore line s).latLeft = 0 := rfl
@[simp] theorem resetCore_hostTurns (line : Bool) (s : State) : (resetCore line s).hostTurns = s.hostTurns := rfl
@[simp] theorem resetCore_draws (line : Bool) (s : State) : (resetCore line s).draws = s.draws := rfl
@[simp] theorem resetCore_inputs (line : Bool) (s : State) : (resetCore line s).inputs = s.inputs := rfl
@[simp] theorem resetCore_replies (line : Bool) (s : State) : (resetCore line s).replies = s.replies := rfl

@[simp] theorem reply_hash (r : Reply) (s : State) : (reply r s).hash = s.hash := rfl
@[simp] theorem reply_phase (r : Reply) (s : State) : (reply r s).phase = s.phase := rfl
@[simp] theorem reply_digest (r : Reply) (s : State) : (reply r s).digest = s.digest := rfl
@[simp] theorem reply_stage (r : Reply) (s : State) : (reply r s).stage = s.stage := rfl
@[simp] theorem reply_result (r : Reply) (s : State) : (reply r s).result = s.result := rfl
@[simp] theorem reply_ovr (r : Reply) (s : State) : (reply r s).ovr = s.ovr := rfl
@[simp] theorem reply_busy (r : Reply) (s : State) : (reply r s).busy = s.busy := rfl
@[simp] theorem reply_inReset (r : Reply) (s : State) : (reply r s).inReset = s.inReset := rfl
@[simp] theorem reply_latLeft (r : Reply) (s : State) : (reply r s).latLeft = s.latLeft := rfl
@[simp] theorem reply_hostTurns (r : Reply) (s : State) : (reply r s).hostTurns = s.hostTurns := rfl
@[simp] theorem reply_draws (r : Reply) (s : State) : (reply r s).draws = s.draws := rfl
@[simp] theorem reply_inputs (r : Reply) (s : State) : (reply r s).inputs = s.inputs := rfl
@[simp] theorem reply_replies (r : Reply) (s : State) : (reply r s).replies = s.replies ++ [r] := rfl

@[simp] theorem drawn_hash (s : State) : (drawn s).hash = s.hash := rfl
@[simp] theorem drawn_phase (s : State) : (drawn s).phase = s.phase := rfl
@[simp] theorem drawn_digest (s : State) : (drawn s).digest = s.digest := rfl
@[simp] theorem drawn_stage (s : State) : (drawn s).stage = s.stage := rfl
@[simp] theorem drawn_result (s : State) : (drawn s).result = s.result := rfl
@[simp] theorem drawn_ovr (s : State) : (drawn s).ovr = s.ovr := rfl
@[simp] theorem drawn_busy (s : State) : (drawn s).busy = s.busy := rfl
@[simp] theorem drawn_inReset (s : State) : (drawn s).inReset = s.inReset := rfl
@[simp] theorem drawn_latLeft (s : State) : (drawn s).latLeft = s.latLeft := rfl
@[simp] theorem drawn_hostTurns (s : State) : (drawn s).hostTurns = s.hostTurns := rfl
@[simp] theorem drawn_draws (s : State) : (drawn s).draws = s.draws + 1 := rfl
@[simp] theorem drawn_inputs (s : State) : (drawn s).inputs = s.inputs := rfl
@[simp] theorem drawn_replies (s : State) : (drawn s).replies = s.replies := rfl

@[simp] theorem takeInput_hash (rest : List Input) (s : State) : (takeInput rest s).hash = s.hash := rfl
@[simp] theorem takeInput_phase (rest : List Input) (s : State) : (takeInput rest s).phase = s.phase := rfl
@[simp] theorem takeInput_digest (rest : List Input) (s : State) : (takeInput rest s).digest = s.digest := rfl
@[simp] theorem takeInput_stage (rest : List Input) (s : State) : (takeInput rest s).stage = s.stage := rfl
@[simp] theorem takeInput_result (rest : List Input) (s : State) : (takeInput rest s).result = s.result := rfl
@[simp] theorem takeInput_ovr (rest : List Input) (s : State) : (takeInput rest s).ovr = s.ovr := rfl
@[simp] theorem takeInput_busy (rest : List Input) (s : State) : (takeInput rest s).busy = s.busy := rfl
@[simp] theorem takeInput_inReset (rest : List Input) (s : State) : (takeInput rest s).inReset = s.inReset := rfl
@[simp] theorem takeInput_latLeft (rest : List Input) (s : State) : (takeInput rest s).latLeft = s.latLeft := rfl
@[simp] theorem takeInput_hostTurns (rest : List Input) (s : State) : (takeInput rest s).hostTurns = s.hostTurns - 1 := rfl
@[simp] theorem takeInput_draws (rest : List Input) (s : State) : (takeInput rest s).draws = s.draws := rfl
@[simp] theorem takeInput_inputs (rest : List Input) (s : State) : (takeInput rest s).inputs = rest := rfl
@[simp] theorem takeInput_replies (rest : List Input) (s : State) : (takeInput rest s).replies = s.replies := rfl

@[simp] theorem loadInputs_hash (is : List Input) (s : State) : (loadInputs is s).hash = s.hash := rfl
@[simp] theorem loadInputs_phase (is : List Input) (s : State) : (loadInputs is s).phase = s.phase := rfl
@[simp] theorem loadInputs_digest (is : List Input) (s : State) : (loadInputs is s).digest = s.digest := rfl
@[simp] theorem loadInputs_stage (is : List Input) (s : State) : (loadInputs is s).stage = s.stage := rfl
@[simp] theorem loadInputs_result (is : List Input) (s : State) : (loadInputs is s).result = s.result := rfl
@[simp] theorem loadInputs_ovr (is : List Input) (s : State) : (loadInputs is s).ovr = s.ovr := rfl
@[simp] theorem loadInputs_busy (is : List Input) (s : State) : (loadInputs is s).busy = s.busy := rfl
@[simp] theorem loadInputs_inReset (is : List Input) (s : State) : (loadInputs is s).inReset = s.inReset := rfl
@[simp] theorem loadInputs_latLeft (is : List Input) (s : State) : (loadInputs is s).latLeft = s.latLeft := rfl
@[simp] theorem loadInputs_hostTurns (is : List Input) (s : State) : (loadInputs is s).hostTurns = s.hostTurns := rfl
@[simp] theorem loadInputs_draws (is : List Input) (s : State) : (loadInputs is s).draws = s.draws := rfl
@[simp] theorem loadInputs_inputs (is : List Input) (s : State) : (loadInputs is s).inputs = s.inputs ++ is := rfl
@[simp] theorem loadInputs_replies (is : List Input) (s : State) : (loadInputs is s).replies = s.replies := rfl

@[simp] theorem staged_hash (stage : Bytes 64) (s : State) : (staged stage s).hash = s.hash := rfl
@[simp] theorem staged_phase (stage : Bytes 64) (s : State) : (staged stage s).phase = s.phase := rfl
@[simp] theorem staged_digest (stage : Bytes 64) (s : State) : (staged stage s).digest = s.digest := rfl
@[simp] theorem staged_stage (stage : Bytes 64) (s : State) : (staged stage s).stage = stage := rfl
@[simp] theorem staged_result (stage : Bytes 64) (s : State) : (staged stage s).result = s.result := rfl
@[simp] theorem staged_ovr (stage : Bytes 64) (s : State) : (staged stage s).ovr = s.ovr := rfl
@[simp] theorem staged_busy (stage : Bytes 64) (s : State) : (staged stage s).busy = s.busy := rfl
@[simp] theorem staged_inReset (stage : Bytes 64) (s : State) : (staged stage s).inReset = s.inReset := rfl
@[simp] theorem staged_latLeft (stage : Bytes 64) (s : State) : (staged stage s).latLeft = s.latLeft := rfl
@[simp] theorem staged_hostTurns (stage : Bytes 64) (s : State) : (staged stage s).hostTurns = s.hostTurns := rfl
@[simp] theorem staged_draws (stage : Bytes 64) (s : State) : (staged stage s).draws = s.draws := rfl
@[simp] theorem staged_inputs (stage : Bytes 64) (s : State) : (staged stage s).inputs = s.inputs := rfl
@[simp] theorem staged_replies (stage : Bytes 64) (s : State) : (staged stage s).replies = s.replies := rfl

@[simp] theorem pushByte_cv (b : Byte) (h : HashState) : (pushByte b h).cv = h.cv := rfl
@[simp] theorem pushByte_buf (b : Byte) (h : HashState) : (pushByte b h).buf = setByte h.buf h.buflen.toNat b := rfl
@[simp] theorem pushByte_blkcnt (b : Byte) (h : HashState) : (pushByte b h).blkcnt = h.blkcnt := rfl
@[simp] theorem pushByte_buflen (b : Byte) (h : HashState) : (pushByte b h).buflen = h.buflen + 1 := rfl
@[simp] theorem pushByte_pend (b : Byte) (h : HashState) : (pushByte b h).pend = h.pend := rfl

@[simp] theorem absorb_cv (h : HashState) : (absorb h).cv = compress h.cv h.buf := rfl
@[simp] theorem absorb_buf (h : HashState) : (absorb h).buf = h.buf := rfl
@[simp] theorem absorb_blkcnt (h : HashState) : (absorb h).blkcnt = h.blkcnt + 1 := rfl
@[simp] theorem absorb_buflen (h : HashState) : (absorb h).buflen = 0 := rfl
@[simp] theorem absorb_pend (h : HashState) : (absorb h).pend = h.pend := rfl

@[simp] theorem lengthBlock_cv (h : HashState) : (lengthBlock h).cv =
    compress h.cv (putLength (zeroFill h.buf h.buflen.toNat 56) (h.blkcnt + 1)) := rfl
@[simp] theorem lengthBlock_buf (h : HashState) : (lengthBlock h).buf =
    putLength (zeroFill h.buf h.buflen.toNat 56) (h.blkcnt + 1) := rfl
@[simp] theorem lengthBlock_blkcnt (h : HashState) : (lengthBlock h).blkcnt = h.blkcnt + 1 := rfl
@[simp] theorem lengthBlock_buflen (h : HashState) : (lengthBlock h).buflen = h.buflen := rfl
@[simp] theorem lengthBlock_pend (h : HashState) : (lengthBlock h).pend = h.pend := rfl

@[simp] theorem wipe_cv (h : HashState) : (wipe h).cv = zeroBytes 64 := rfl
@[simp] theorem wipe_buf (h : HashState) : (wipe h).buf = zeroBytes 64 := rfl
@[simp] theorem wipe_blkcnt (h : HashState) : (wipe h).blkcnt = h.blkcnt := rfl
@[simp] theorem wipe_buflen (h : HashState) : (wipe h).buflen = 0 := rfl
@[simp] theorem wipe_pend (h : HashState) : (wipe h).pend = h.pend := rfl

end Sys2Proof.Machine
end

