-- ==== Sys2Proof/Laws/Ops.lean ====
section
/-! SUPPORT. What each shared operation can do, said once: one lemma per operation, which later proofs cite instead of
unfolding it. -/

namespace Sys2Proof.Machine

/-! ### The HashState's operations -/

theorem absorbBytes_nil (h : HashState) : absorbBytes h [] = h := rfl

theorem absorbBytes_cons (h : HashState) (b : Byte) (bs : List Byte) :
    absorbBytes h (b :: bs) = absorbBytes (absorbByte h b) bs := rfl

theorem absorbBytes_append (h : HashState) (xs ys : List Byte) :
    absorbBytes h (xs ++ ys) = absorbBytes (absorbBytes h xs) ys := by
  simp [absorbBytes, List.foldl_append]

/-- One byte either stays in the buffer or fills it and the buffer is absorbed (R76). -/
theorem absorbByte_cases (h : HashState) (b : Byte) :
    (h.buflen ≠ 63 ∧ absorbByte h b = pushByte b h) ∨
    (h.buflen = 63 ∧ absorbByte h b = absorb (pushByte b h)) := by
  by_cases h63 : h.buflen = 63
  · right
    refine ⟨h63, ?_⟩
    have : (pushByte b h).buflen = 64 := by simp [h63]
    simp only [absorbByte, if_pos this]
  · left
    refine ⟨h63, ?_⟩
    have : (pushByte b h).buflen ≠ 64 := by
      intro e
      apply h63
      have e' : h.buflen + 1 = 64 := by simpa using e
      bv_omega
    simp only [absorbByte, if_neg this]

/-- The whole bytes of an UPDATE leave PEND alone (R76). -/
@[simp] theorem absorbBytes_pend (h : HashState) (bs : List Byte) : (absorbBytes h bs).pend = h.pend := by
  induction bs generalizing h with
  | nil => rfl
  | cons b bs ih =>
    rw [absorbBytes_cons, ih]
    rcases absorbByte_cases h b with ⟨-, e⟩ | ⟨-, e⟩ <;> simp [e]

/-- Whole bytes never leave a full buffer behind (R14, R76). -/
theorem absorbBytes_buflen_le (h : HashState) (bs : List Byte) (hl : h.buflen.toNat ≤ 63) :
    (absorbBytes h bs).buflen.toNat ≤ 63 := by
  induction bs generalizing h with
  | nil => exact hl
  | cons b bs ih =>
    rw [absorbBytes_cons]
    apply ih
    rcases absorbByte_cases h b with ⟨hne, e⟩ | ⟨-, e⟩
    · rw [e, pushByte_buflen]
      have : h.buflen.toNat ≠ 63 := fun e63 => hne (BitVec.eq_of_toNat_eq (by simpa using e63))
      bv_omega
    · simp [e]

/-- The partial byte of an UPDATE: nothing, or one byte pushed and PEND set (R77). -/
theorem absorbTail_cases (rem : Nat) (b : Byte) (h : HashState) :
    (rem = 0 ∧ absorbTail rem b h = h) ∨
    (rem ≠ 0 ∧ absorbTail rem b h = { pushByte b h with pend := BitVec.ofNat 3 rem }) := by
  by_cases h0 : rem = 0
  · exact .inl ⟨h0, by simp [absorbTail, h0]⟩
  · exact .inr ⟨h0, by simp [absorbTail, h0]⟩

/-- The pad bit: a whole byte 0x80, or the partial byte masked and completed (R79). PEND is 0 after it. -/
theorem padBit_cases (h : HashState) :
    (h.pend = 0 ∧ padBit h = pushByte 0x80#8 h) ∨
    (h.pend ≠ 0 ∧ padBit h = { h with
      buf := setByte h.buf (h.buflen.toNat - 1) (padPartial h.pend.toNat (byteAt h.buf (h.buflen.toNat - 1))),
      pend := 0 }) := by
  by_cases h0 : h.pend = 0
  · exact .inl ⟨h0, by simp only [padBit, if_pos h0]⟩
  · exact .inr ⟨h0, by simp only [padBit, if_neg h0]⟩

@[simp] theorem padBit_pend (h : HashState) : (padBit h).pend = 0 := by
  rcases padBit_cases h with ⟨h0, e⟩ | ⟨-, e⟩
  · rw [e, pushByte_pend, h0]
  · rw [e]

/-- The spill: a block whose pad byte leaves no room for the length is filled with zeros and absorbed (R80). -/
theorem spill_cases (h : HashState) :
    (h.buflen.toNat ≤ 56 ∧ spill h = h) ∨
    (56 < h.buflen.toNat ∧ spill h = absorb { h with buf := zeroFill h.buf h.buflen.toNat 64 }) := by
  by_cases h56 : 56 < h.buflen.toNat
  · exact .inr ⟨h56, by simp [spill, h56]⟩
  · exact .inl ⟨Nat.not_lt.mp h56, by simp [spill, h56]⟩

@[simp] theorem spill_pend (h : HashState) : (spill h).pend = h.pend := by
  rcases spill_cases h with ⟨-, e⟩ | ⟨-, e⟩ <;> simp [e]

@[simp] theorem padAndAbsorb_pend (h : HashState) : (padAndAbsorb h).pend = 0 := by
  simp [padAndAbsorb]

/-! ### The commands -/

/-- Everything an UPDATE can do (R75 to R77): one of its three errors, or its effect. -/
theorem execUpdate_cases (bitlen : BitVec 10) (s t : State) (h : execUpdate bitlen s = .next t) :
    (512 < bitlen.toNat ∧ t = raise .errIllegal s) ∨
    (bitlen.toNat ≤ 512 ∧ s.phase ≠ .ready ∧ t = raise .errNotReady s) ∨
    (bitlen.toNat ≤ 512 ∧ s.phase = .ready ∧ s.hash.pend ≠ 0 ∧ t = raise .errSeq s) ∨
    (bitlen.toNat ≤ 512 ∧ s.phase = .ready ∧ s.hash.pend = 0 ∧
      t = { s with hash := updateHash bitlen s.stage s.hash, result := .ok }) := by
  unfold execUpdate at h
  split at h
  · left; simp_all
  · right
    split at h
    · left; simp_all
    · right
      split at h
      · left; simp_all
      · right; simp_all

/-- Everything a FINALIZE can do (R78 to R82): its one error, or its effect. -/
theorem execFinalize_cases (s t : State) (h : execFinalize s = .next t) :
    (s.phase ≠ .ready ∧ t = raise .errNotReady s) ∨
    (s.phase = .ready ∧ t = { s with digest := digestOf (padAndAbsorb s.hash).cv, hash := wipe (padAndAbsorb s.hash),
                                     phase := .finalized, result := .ok }) := by
  unfold execFinalize at h
  split at h
  · left; simp_all
  · right; simp_all

/-- Every command answers a next state (R87: the core never halts). -/
theorem exec_next (i : Instr) (s : State) : ∃ t, exec i s = .next t := by
  cases i with
  | init => exact ⟨_, rfl⟩
  | update bitlen =>
    simp only [exec, execUpdate]
    split
    · exact ⟨_, rfl⟩
    · split
      · exact ⟨_, rfl⟩
      · split <;> exact ⟨_, rfl⟩
  | finalize =>
    simp only [exec, execFinalize]
    split <;> exact ⟨_, rfl⟩

/-! ### The window -/

/-- Everything a CMD write can do (R70, R72, R73). -/
theorem issueCommand_cases (w : Word) (s : State) :
    (s.busy = true ∧ issueCommand w s = .next (dropCommand s)) ∨
    (s.busy = false ∧ (∃ e, decode w = .error e) ∧ issueCommand w s = .next (accept w s (raise .errIllegal s))) ∨
    (s.busy = false ∧ ∃ i t, decode w = .ok i ∧ exec i s = .next t ∧ issueCommand w s = .next (accept w s t)) := by
  cases hb : s.busy with
  | true => exact .inl ⟨rfl, by simp [issueCommand, hb]⟩
  | false =>
    right
    cases hd : decode w with
    | error e => exact .inl ⟨rfl, ⟨e, rfl⟩, by simp [issueCommand, hb, hd]⟩
    | ok i =>
      obtain ⟨t, ht⟩ := exec_next i s
      exact .inr ⟨rfl, i, t, rfl, ht, by simp [issueCommand, hb, hd, ht]⟩

/-- An offset names CMD exactly when it is 0 (R27). -/
theorem registerAt_cmd (off : Nat) : registerAt off = .cmd ↔ off = 0 := by
  unfold registerAt
  repeat' split
  all_goals simp_all

/-- An offset names a word of STAGE exactly when it is one of 0x100 to 0x13F (R27). -/
theorem registerAt_stage (off w : Nat) : registerAt off = .stage w ↔ (0x100 ≤ off ∧ off < 0x140 ∧ w = (off - 0x100) / 4) := by
  unfold registerAt
  repeat' split
  all_goals first
    | (simp_all; done)
    | (simp only [Register.stage.injEq]; omega)

/-- Everything an aligned write can do (R32, R98). -/
theorem memWrite_cases (off : Nat) (v : Word) (s : State) :
    (s.inReset = true ∧ memWrite off v s = .next s) ∨
    (s.inReset = false ∧ off = 0 ∧ memWrite off v s = issueCommand v s) ∨
    (s.inReset = false ∧ 0x100 ≤ off ∧ off < 0x140 ∧
      memWrite off v s = .next { s with stage := setBusWord s.stage ((off - 0x100) / 4) v }) ∨
    (s.inReset = false ∧ off ≠ 0 ∧ (off < 0x100 ∨ 0x140 ≤ off) ∧ memWrite off v s = .next s) := by
  cases hr : s.inReset with
  | true => exact .inl ⟨rfl, by simp [memWrite, hr]⟩
  | false =>
    right
    cases hreg : registerAt off with
    | cmd =>
      left
      exact ⟨rfl, (registerAt_cmd off).mp hreg, by simp [memWrite, hr, hreg]⟩
    | stage w =>
      right; left
      obtain ⟨h1, h2, rfl⟩ := (registerAt_stage off w).mp hreg
      exact ⟨rfl, h1, h2, by simp [memWrite, hr, hreg]⟩
    | _ =>
      right; right
      refine ⟨rfl, ?_, ?_, by simp [memWrite, hr, hreg]⟩
      · intro h0
        rw [(registerAt_cmd off).mpr h0] at hreg
        cases hreg
      · by_contra hc
        have := (registerAt_stage off ((off - 0x100) / 4)).mpr ⟨by omega, by omega, rfl⟩
        rw [this] at hreg
        cases hreg

/-- An aligned write always answers a next state. -/
theorem memWrite_next (off : Nat) (v : Word) (s : State) : ∃ t, memWrite off v s = .next t := by
  rcases memWrite_cases off v s with ⟨-, e⟩ | ⟨-, -, e⟩ | ⟨-, -, -, e⟩ | ⟨-, -, -, e⟩
  · exact ⟨_, e⟩
  · rcases issueCommand_cases v s with ⟨-, e'⟩ | ⟨-, -, e'⟩ | ⟨-, i, t, -, -, e'⟩ <;> exact ⟨_, e.trans e'⟩
  · exact ⟨_, e⟩
  · exact ⟨_, e⟩

/-- The one access form the window takes (R28). -/
theorem alignedWord_iff (off width : Nat) : alignedWord off width = true ↔ (width = 4 ∧ off % 4 = 0) := by
  simp [alignedWord]

/-- Everything a host write can do (R28, R32, R91). -/
theorem hostWrite_cases (off width : Nat) (v : Word) (s : State) :
    (0x200 ≤ off ∧ hostWrite off width v s = .fault .outsideWindow) ∨
    (off < 0x200 ∧ (width ≠ 4 ∨ off % 4 ≠ 0) ∧ hostWrite off width v s = .next (reply .busError s)) ∨
    (off < 0x200 ∧ width = 4 ∧ off % 4 = 0 ∧
      ∃ t, memWrite off v s = .next t ∧ hostWrite off width v s = .next (reply .done t)) := by
  by_cases hw : 0x200 ≤ off
  · exact .inl ⟨hw, by simp [hostWrite, windowSize, hw]⟩
  · right
    have hlt : off < 0x200 := Nat.lt_of_not_le hw
    cases ha : alignedWord off width with
    | true =>
      right
      obtain ⟨h4, h0⟩ := (alignedWord_iff off width).mp ha
      obtain ⟨t, ht⟩ := memWrite_next off v s
      exact ⟨hlt, h4, h0, t, ht, by simp [hostWrite, windowSize, hw, ha, ht]⟩
    | false =>
      left
      refine ⟨hlt, ?_, by simp [hostWrite, windowSize, hw, ha]⟩
      by_contra hc
      have : alignedWord off width = true := (alignedWord_iff off width).mpr (by omega)
      simp [this] at ha

/-- Everything a host read can do (R28, R31, R91). -/
theorem hostRead_cases (off width : Nat) (s : State) :
    (0x200 ≤ off ∧ hostRead off width s = .fault .outsideWindow) ∨
    (off < 0x200 ∧ (width ≠ 4 ∨ off % 4 ≠ 0) ∧ hostRead off width s = .next (reply .busError s)) ∨
    (off < 0x200 ∧ width = 4 ∧ off % 4 = 0 ∧
      hostRead off width s = .next (reply (.data (memRead off s)) (drawn s))) := by
  by_cases hw : 0x200 ≤ off
  · exact .inl ⟨hw, by simp [hostRead, windowSize, hw]⟩
  · right
    have hlt : off < 0x200 := Nat.lt_of_not_le hw
    cases ha : alignedWord off width with
    | true =>
      right
      obtain ⟨h4, h0⟩ := (alignedWord_iff off width).mp ha
      exact ⟨hlt, h4, h0, by simp [hostRead, windowSize, hw, ha]⟩
    | false =>
      left
      refine ⟨hlt, ?_, by simp [hostRead, windowSize, hw, ha]⟩
      by_contra hc
      have : alignedWord off width = true := (alignedWord_iff off width).mpr (by omega)
      simp [this] at ha

/-- Everything a step can do (R34, R71): the engine's step, nothing, or the first waiting input's. -/
theorem step_cases (s : State) :
    (s.busy = true ∧ (s.inputs = [] ∨ s.hostTurns = 0) ∧ step s = .next (engineStep s)) ∨
    (s.busy = false ∧ s.inputs = [] ∧ step s = .next s) ∨
    (engineTurn s = false ∧ ∃ i rest, s.inputs = i :: rest ∧ step s = inputStep i (takeInput rest s)) := by
  cases he : engineTurn s with
  | true =>
    left
    have h := he
    simp only [engineTurn, Bool.and_eq_true, Bool.or_eq_true, List.isEmpty_iff, beq_iff_eq] at h
    exact ⟨h.1, h.2, by simp [step, coreStep, he]⟩
  | false =>
    right
    cases hi : s.inputs with
    | nil =>
      left
      refine ⟨?_, rfl, by simp [step, coreStep, he, hi]⟩
      simpa [engineTurn, hi] using he
    | cons i rest =>
      right
      exact ⟨rfl, i, rest, rfl, by simp [step, coreStep, he, hi]⟩

end Sys2Proof.Machine
end

