-- ==== Sys2Proof/Laws/Hash.lean ====
section
/-! SUPPORT. What the streaming operations do to the block buffer, in closed form: a run of bytes that does not fill the
buffer, one that just fills it, the pad byte, and the two commands when their guards have passed. -/

namespace Sys2Proof.Machine

/-- Two HashStates are equal when their fields are, the buffers byte by byte. -/
theorem hashState_ext (a b : HashState) (hcv : a.cv = b.cv) (hbuf : ∀ k (hk : k < 64), a.buf[k] = b.buf[k])
    (hblk : a.blkcnt = b.blkcnt) (hlen : a.buflen.toNat = b.buflen.toNat) (hpend : a.pend = b.pend) : a = b := by
  cases a; cases b
  simp only at hcv hbuf hblk hlen hpend
  subst hcv; subst hblk; subst hpend
  have := BitVec.eq_of_toNat_eq hlen
  subst this
  have := Vector.ext hbuf
  subst this; rfl

/-- A buffer with a run of bytes laid over it from index `at0` up. -/
def overlay (buf : Bytes 64) (at0 : Nat) (bs : List Byte) : Bytes 64 :=
  Vector.ofFn fun k => if at0 ≤ k.val ∧ k.val < at0 + bs.length then bs.getD (k.val - at0) 0 else buf[k]

@[simp] theorem getElem_overlay (buf : Bytes 64) (at0 : Nat) (bs : List Byte) (k : Nat) (h : k < 64) :
    (overlay buf at0 bs)[k] =
      if at0 ≤ k ∧ k < at0 + bs.length then bs.getD (k - at0) 0 else buf[k] := by
  simp [overlay]

/-- Bytes that do not fill the buffer are appended to it (R76). -/
theorem absorbBytes_short (h : HashState) (bs : List Byte) (hl : h.buflen.toNat + bs.length < 64) :
    absorbBytes h bs = { h with
      buf := overlay h.buf h.buflen.toNat bs,
      buflen := BitVec.ofNat 7 (h.buflen.toNat + bs.length) } := by
  induction bs generalizing h with
  | nil =>
    rw [absorbBytes_nil]
    have ho : overlay h.buf h.buflen.toNat [] = h.buf := by
      apply Vector.ext; intro k hk; rw [getElem_overlay, if_neg (by simp)]
    apply hashState_ext <;> simp [ho]
  | cons b bs ih =>
    simp only [List.length_cons] at hl
    rw [absorbBytes_cons]
    rcases absorbByte_cases h b with ⟨-, e⟩ | ⟨e63, -⟩
    · have hb : (h.buflen + 1).toNat = h.buflen.toNat + 1 := by bv_omega
      rw [e, ih _ (by rw [pushByte_buflen, hb]; omega)]
      apply hashState_ext <;>
        simp only [pushByte_cv, pushByte_blkcnt, pushByte_pend, pushByte_buf, pushByte_buflen, hb, List.length_cons]
      · intro k hk
        rw [getElem_overlay, getElem_overlay, getElem_setByte]
        simp only [List.length_cons]
        by_cases h1 : k = h.buflen.toNat
        · subst h1; simp
        · by_cases h2 : h.buflen.toNat + 1 ≤ k ∧ k < h.buflen.toNat + 1 + bs.length
          · rw [if_pos h2, if_pos (by omega)]
            have : k - h.buflen.toNat = (k - (h.buflen.toNat + 1)) + 1 := by omega
            rw [this, List.getD_cons_succ]
          · have h3 : ¬ (h.buflen.toNat ≤ k ∧ k < h.buflen.toNat + (bs.length + 1)) := by omega
            rw [if_neg h2, if_neg h3, if_neg h1]
      · congr 2; omega
    · exfalso; rw [e63] at hl; simp at hl; omega

/-- Bytes that just fill the buffer are appended to it, and the full buffer is absorbed once (R76). -/
theorem absorbBytes_full (h : HashState) (bs : List Byte) (hn : h.buflen.toNat ≤ 63)
    (hl : h.buflen.toNat + bs.length = 64) :
    absorbBytes h bs = { h with
      buf := overlay h.buf h.buflen.toNat bs,
      cv := compress h.cv (overlay h.buf h.buflen.toNat bs),
      blkcnt := h.blkcnt + 1, buflen := 0 } := by
  have hne : bs ≠ [] := by rintro rfl; simp at hl; omega
  obtain ⟨xs, x, rfl⟩ : ∃ xs x, bs = xs ++ [x] :=
    ⟨bs.dropLast, bs.getLast hne, (List.dropLast_append_getLast hne).symm⟩
  simp only [List.length_append, List.length_singleton] at hl
  have hL : h.buflen.toNat + xs.length = 63 := by omega
  rw [absorbBytes_append, absorbBytes_short h xs (by omega), absorbBytes_cons, absorbBytes_nil, hL]
  have key : setByte (overlay h.buf h.buflen.toNat xs) 63 x = overlay h.buf h.buflen.toNat (xs ++ [x]) := by
    apply Vector.ext; intro k hk
    rw [getElem_setByte, getElem_overlay, getElem_overlay]
    simp only [List.length_append, List.length_singleton]
    by_cases h1 : k = 63
    · rw [if_pos h1, if_pos (by omega)]
      have h3 : k - h.buflen.toNat = xs.length := by omega
      rw [h3]; simp
    · rw [if_neg h1]
      by_cases h2 : h.buflen.toNat ≤ k ∧ k < h.buflen.toNat + xs.length
      · rw [if_pos h2, if_pos (by omega), List.getD_append _ _ _ _ (by omega)]
      · rw [if_neg h2, if_neg (by omega)]
  rcases absorbByte_cases { h with buf := overlay h.buf h.buflen.toNat xs, buflen := BitVec.ofNat 7 63 } x
    with ⟨ne, -⟩ | ⟨-, e⟩
  · exact absurd rfl ne
  · rw [e]
    have hb : (pushByte x { h with buf := overlay h.buf h.buflen.toNat xs, buflen := BitVec.ofNat 7 63 }).buf =
        overlay h.buf h.buflen.toNat (xs ++ [x]) := by
      rw [pushByte_buf]; exact key
    apply hashState_ext
    · rw [absorb_cv, hb]; rfl
    · intro k hk; rw [absorb_buf]; simp only [hb]
    · rfl
    · rfl
    · rfl

/-- The whole bytes an UPDATE takes are the first bytes of STAGE (R76). -/
theorem getD_take_stage (stage : Bytes 64) (n j : Nat) (hj : j < n) :
    (stage.toList.take n).getD j 0 = byteAt stage j := by
  by_cases h : j < 64
  · rw [byteAt_of_lt _ _ h]
    simp [List.getD, hj, h]
  · rw [byteAt_of_le _ _ (by omega)]
    have : stage.toList[j]? = none := List.getElem?_eq_none (by simp; omega)
    simp [List.getD, hj, this]

/-- The pad byte stands at `pos`, and BUFLEN is one more, in both branches (R79). -/
theorem padBit_at (h : HashState) (pos : Nat) (hpos : pos < 64)
    (hp : if h.pend = 0 then pos = h.buflen.toNat else pos + 1 = h.buflen.toNat) :
    padBit h = { h with
      buf := setByte h.buf pos (if h.pend = 0 then 0x80#8 else padPartial h.pend.toNat (byteAt h.buf pos)),
      buflen := BitVec.ofNat 7 (pos + 1), pend := 0 } := by
  rcases padBit_cases h with ⟨h0, e⟩ | ⟨h0, e⟩
  · rw [if_pos h0] at hp
    rw [e]
    subst hp
    apply hashState_ext
    · rfl
    · intro k hk; simp only [pushByte_buf, if_pos h0]
    · rfl
    · simp only [pushByte_buflen]; bv_omega
    · exact h0
  · rw [if_neg h0] at hp
    rw [e]
    have : h.buflen.toNat - 1 = pos := by omega
    rw [this]
    apply hashState_ext
    · rfl
    · intro k hk; simp only [if_neg h0]
    · rfl
    · simp; omega
    · rfl

/-- An UPDATE whose guards pass has its effect (R75 to R77). -/
theorem exec_update_ready (s : State) (bitlen : BitVec 10) (hready : s.phase = .ready) (hp : s.hash.pend = 0)
    (hlen : bitlen.toNat ≤ 512) :
    exec (.update bitlen) s = .next { s with hash := updateHash bitlen s.stage s.hash, result := .ok } := by
  have h1 : ¬ maxBitlen < bitlen.toNat := Nat.not_lt.mpr hlen
  have h2 : ¬ s.phase ≠ .ready := fun x => x hready
  have h3 : ¬ s.hash.pend ≠ 0 := fun x => x hp
  simp only [exec, execUpdate, if_neg h1, if_neg h2, if_neg h3]

/-- A FINALIZE in `READY` has its effect (R78 to R82). -/
theorem exec_finalize_ready (s : State) (hready : s.phase = .ready) :
    exec .finalize s = .next { s with
      digest := digestOf (padAndAbsorb s.hash).cv, hash := wipe (padAndAbsorb s.hash),
      phase := .finalized, result := .ok } := by
  have h2 : ¬ s.phase ≠ .ready := fun x => x hready
  simp only [exec, execFinalize, if_neg h2]

end Sys2Proof.Machine
end

