-- ==== Sys2Proof/Laws/PerInstr.lean ====
section
/-! SUPPORT. A statement of every instruction as syntax, one lemma per constructor: a well-formed instruction's command
word is legal (R43). -/

namespace Sys2Proof.Laws.EncodesLegal

/-- The instruction's command word is legal when the instruction is well formed (R41, R43). -/
def Statement (i : Instr) : Prop := i.WellFormed → legal (encode i) = true

theorem init : Statement .init := fun _ => by decide

/-- Every length at once: the kernel tries the 1024 of them. -/
theorem update_all : ∀ bitlen : BitVec 10, bitlen.toNat ≤ maxBitlen → legal (encode (.update bitlen)) = true := by
  decide +kernel

theorem update (bitlen : BitVec 10) : Statement (.update bitlen) := fun h => update_all bitlen h

theorem finalize : Statement .finalize := fun _ => by decide

end Sys2Proof.Laws.EncodesLegal
end

