-- ==== Sys2Proof/Laws/Step.lean ====
section
/-! SUPPORT. What one step of the machine can do to the state the spec gives it, said once: proofs about every step go
through `step_effect` and never unfold the step. -/

namespace Sys2Proof.Machine

/-- The step of a waiting input when it is not the engine's turn (R34). -/
theorem step_input (s : State) (i : Input) (rest : List Input) (hi : s.inputs = i :: rest)
    (he : engineTurn s = false) : step s = inputStep i (takeInput rest s) := by
  simp [step, coreStep, he, hi]

/-- With no command in flight the engine has no turn (R71). -/
theorem engineTurn_idle (s : State) (h : s.busy = false) : engineTurn s = false := by
  simp [engineTurn, h]

/-- While the host has a turn left and something waits, the engine has none (R71). -/
theorem engineTurn_host (s : State) (h : s.hostTurns ≠ 0) (i : Input) (rest : List Input)
    (hi : s.inputs = i :: rest) : engineTurn s = false := by
  simp [engineTurn, h, hi]

/-- A CMD write that waits first is a command issue, unless reset is asserted (R32). -/
theorem inputStep_cmd (s : State) (w : Word) (hr : s.inReset = false) :
    inputStep (.access (.write 0x000 4 w)) s =
      match issueCommand w s with
      | .next t => .next (reply .done t)
      | .fault r => .fault r
      | .refused r => .refused r := by
  have ha : alignedWord 0x000 4 = true := rfl
  have hreg : registerAt 0x000 = .cmd := rfl
  cases hi : issueCommand w s <;> simp [inputStep, hostWrite, windowSize, ha, memWrite, hr, hreg, hi]

/-- What one step can do to the state the spec gives the machine, one case for each kind of step. -/
inductive StepEffect (s t : State) : Prop
  /-- Nothing of it changes: a read, a bus error, an ignored write, or nothing waits. -/
  | unchanged (h : t.hash = s.hash ∧ t.phase = s.phase ∧ t.digest = s.digest ∧ t.stage = s.stage ∧
      t.result = s.result ∧ t.ovr = s.ovr ∧ t.busy = s.busy ∧ t.inReset = s.inReset ∧ t.latLeft = s.latLeft)
  /-- The engine's step (R71). -/
  | engine (hb : s.busy = true) (h : t.hash = s.hash ∧ t.phase = s.phase ∧ t.digest = s.digest ∧
      t.stage = s.stage ∧ t.result = s.result ∧ t.ovr = s.ovr ∧ t.busy = decide (1 < s.latLeft) ∧
      t.inReset = s.inReset ∧ t.latLeft = s.latLeft - 1)
  /-- An edge of the reset input (R98). -/
  | reset (h : ∃ line rest,
      (s.inputs = .assertReset :: rest ∧ line = true ∨ s.inputs = .deassertReset :: rest ∧ line = false) ∧
      t.inReset = line ∧ t.hash = HashState.reset ∧ t.phase = .idle ∧ t.digest = zeroBytes 32 ∧
      t.stage = zeroBytes 64 ∧ t.result = .ok ∧ t.ovr = false ∧ t.busy = false ∧ t.latLeft = 0)
  /-- A STAGE write (R32). -/
  | stage (hr : s.inReset = false)
      (hi : ∃ off v rest, s.inputs = .access (.write off 4 v) :: rest ∧ 0x100 ≤ off ∧ off < 0x140 ∧
        t.stage = setBusWord s.stage ((off - 0x100) / 4) v)
      (h : t.hash = s.hash ∧ t.phase = s.phase ∧ t.digest = s.digest ∧ t.result = s.result ∧ t.ovr = s.ovr ∧
        t.busy = s.busy ∧ t.inReset = s.inReset ∧ t.latLeft = s.latLeft)
  /-- A CMD write while a command is in flight (R72). -/
  | dropped (hr : s.inReset = false) (hb : s.busy = true)
      (hi : ∃ w rest, s.inputs = .access (.write 0x000 4 w) :: rest)
      (h : t.hash = s.hash ∧ t.phase = s.phase ∧ t.digest = s.digest ∧ t.stage = s.stage ∧
        t.result = s.result ∧ t.ovr = true ∧ t.busy = s.busy ∧ t.inReset = s.inReset ∧ t.latLeft = s.latLeft)
  /-- A CMD write that is accepted (R70), with the command's effect or its error. -/
  | accepted (hr : s.inReset = false) (hb : s.busy = false) (w : Word)
      (hi : ∃ rest, s.inputs = .access (.write 0x000 4 w) :: rest)
      (h : t.busy = true ∧ 1 ≤ t.latLeft ∧ t.inReset = false ∧ t.stage = s.stage)
      (hcmd :
        (t.result ≠ .ok ∧ t.hash = s.hash ∧ t.phase = s.phase ∧ t.digest = s.digest ∧ t.ovr = s.ovr) ∨
        (decode w = .ok .init ∧ t.result = .ok ∧ t.ovr = false ∧ t.hash = hashInit ∧
          t.digest = zeroBytes 32 ∧ t.phase = .ready) ∨
        (∃ bitlen, decode w = .ok (.update bitlen) ∧ bitlen.toNat ≤ 512 ∧ s.phase = .ready ∧ s.hash.pend = 0 ∧
          t.result = .ok ∧ t.ovr = s.ovr ∧ t.hash = updateHash bitlen s.stage s.hash ∧ t.digest = s.digest ∧
          t.phase = .ready) ∨
        (decode w = .ok .finalize ∧ s.phase = .ready ∧ t.result = .ok ∧ t.ovr = s.ovr ∧
          t.hash = wipe (padAndAbsorb s.hash) ∧ t.digest = digestOf (padAndAbsorb s.hash).cv ∧
          t.phase = .finalized))

/-- An aligned write's effect, after the input has been taken. -/
theorem write_effect (s t : State) (off : Nat) (v : Word) (rest : List Input)
    (hi : s.inputs = .access (.write off 4 v) :: rest) (h : memWrite off v (takeInput rest s) = .next t) :
    StepEffect s (reply .done t) := by
  rcases memWrite_cases off v (takeInput rest s) with
    ⟨-, e⟩ | ⟨hr, h0, e⟩ | ⟨hr, h1, h2, e⟩ | ⟨-, -, -, e⟩
  · rw [e] at h; cases h; exact .unchanged (by simp)
  · subst h0
    rw [e] at h
    rcases issueCommand_cases v (takeInput rest s) with ⟨b, e'⟩ | ⟨b, -, e'⟩ | ⟨b, i, x, hd, hx, e'⟩
    · rw [e'] at h; cases h; exact .dropped hr b ⟨v, rest, hi⟩ (by simp)
    · rw [e'] at h; cases h
      exact .accepted hr b v ⟨rest, hi⟩ ⟨rfl, by simp [latency], hr, rfl⟩ (.inl ⟨by simp, rfl, rfl, rfl, rfl⟩)
    · rw [e'] at h; cases h
      cases i with
      | init =>
        have hx' : execInit (takeInput rest s) = .next x := hx
        unfold execInit at hx'
        cases hx'
        exact .accepted hr b v ⟨rest, hi⟩ ⟨rfl, by simp [latency], hr, rfl⟩
          (.inr (.inl ⟨hd, rfl, rfl, rfl, rfl, rfl⟩))
      | update bitlen =>
        rcases execUpdate_cases bitlen _ x hx with ⟨-, e5⟩ | ⟨-, -, e5⟩ | ⟨-, -, -, e5⟩ | ⟨hl, hph, hp, e5⟩ <;>
          subst e5 <;>
          refine .accepted hr b v ⟨rest, hi⟩ ⟨rfl, by simp [latency], hr, rfl⟩ ?_
        · exact .inl ⟨by simp, rfl, rfl, rfl, rfl⟩
        · exact .inl ⟨by simp, rfl, rfl, rfl, rfl⟩
        · exact .inl ⟨by simp, rfl, rfl, rfl, rfl⟩
        · exact .inr (.inr (.inl ⟨bitlen, hd, hl, hph, hp, rfl, rfl, rfl, rfl, hph⟩))
      | finalize =>
        rcases execFinalize_cases _ x hx with ⟨-, e5⟩ | ⟨hph, e5⟩ <;>
          subst e5 <;>
          refine .accepted hr b v ⟨rest, hi⟩ ⟨rfl, by simp [latency], hr, rfl⟩ ?_
        · exact .inl ⟨by simp, rfl, rfl, rfl, rfl⟩
        · exact .inr (.inr (.inr ⟨hd, hph, rfl, rfl, rfl, rfl, rfl⟩))
  · rw [e] at h; cases h
    exact .stage hr ⟨off, v, rest, hi, h1, h2, rfl⟩ (by simp)
  · rw [e] at h; cases h; exact .unchanged (by simp)

/-- Everything a step that answers a next state can have done. -/
theorem step_effect (s t : State) (h : step s = .next t) : StepEffect s t := by
  rcases step_cases s with ⟨hb, -, e⟩ | ⟨-, -, e⟩ | ⟨-, i, rest, hi, e⟩
  · rw [e] at h; cases h; exact .engine hb (by simp)
  · rw [e] at h; cases h; exact .unchanged (by simp)
  · rw [e] at h
    cases i with
    | assertReset => cases h; exact .reset ⟨true, rest, .inl ⟨hi, rfl⟩, by simp⟩
    | deassertReset => cases h; exact .reset ⟨false, rest, .inr ⟨hi, rfl⟩, by simp⟩
    | poll =>
      cases h
      apply StepEffect.unchanged
      split <;> simp
    | access a =>
      cases a with
      | read off width =>
        have h' : hostRead off width (takeInput rest s) = .next t := h
        rcases hostRead_cases off width (takeInput rest s) with ⟨-, e2⟩ | ⟨-, -, e2⟩ | ⟨-, -, -, e2⟩ <;>
          (rw [e2] at h'; cases h'; try exact .unchanged (by simp))
      | write off width v =>
        have h' : hostWrite off width v (takeInput rest s) = .next t := h
        rcases hostWrite_cases off width v (takeInput rest s) with ⟨-, e2⟩ | ⟨-, -, e2⟩ | ⟨-, h4, -, u, hm, e2⟩
        · rw [e2] at h'; cases h'
        · rw [e2] at h'; cases h'; exact .unchanged (by simp)
        · rw [e2] at h'; cases h'
          subst h4
          exact write_effect s u off v rest hi hm

end Sys2Proof.Machine
end

