-- ==== Sys2Proof/Tests/Slice0.lean ====
section
/-! SUPPORT. The model's own tests: what WellFormed refuses, words written from the encoding of spec/30_encoding.md, values
of spec/95_test_vectors.md, one step at a time, and for every statement with hypotheses a witness that they can be met. -/

namespace Sys2Proof.Tests

open Sys2Proof Sys2Proof.Machine

/-! ### States the tests start from -/

/-- A core that has just been initialised (R74). -/
def ready : State := { State.reset with phase := .ready, hash := hashInit }

/-- `ready` with BUFLEN bytes buffered and PEND bits of the last one valid. -/
def readyAt (buflen : BitVec 7) (pend : BitVec 3) : State :=
  { ready with hash := { hashInit with buflen := buflen, pend := pend } }

/-- `ready` with these first STAGE bytes and zeros after them. -/
def readyWith (bytes : List Byte) : State :=
  { ready with stage := Vector.ofFn fun k => bytes.getD k.val 0x00#8 }

/-- A core whose digest has been produced (R82). -/
def finalized : State := { State.reset with phase := .finalized, hash := { HashState.reset with blkcnt := 1 } }

/-- A core with a command in flight that needs `n` more steps, `turns` host turns before the next of them. -/
def busyFor (n turns : Nat) : State := { ready with busy := true, latLeft := n, hostTurns := turns }

/-- The state with this input waiting. -/
def waiting (i : Input) (s : State) : State := { s with inputs := [i] }

/-- A core held in reset with this input waiting. -/
def held (i : Input) : State := { waiting i State.reset with inReset := true }

/-- The host's write of a word to CMD. -/
def cmdInput (w : Word) : Input := .access (.write 0x000 4 w)

/-- The outcome is a next state of which `p` holds. -/
def nextIs (o : Host.Outcome State Fault Refusal) (p : State → Bool) : Bool :=
  match o with
  | .next t => p t
  | .fault _ => false
  | .refused _ => false

/-! ### WellFormed -/

/-- R41: 513 bits is one more than STAGE holds. -/
theorem test_ill_formed_update_513 : ¬ (Instr.update 513).WellFormed := by decide

/-- R41: the largest value of the field. -/
theorem test_ill_formed_update_1023 : ¬ (Instr.update 1023).WellFormed := by decide

/-- R41: 512 bits is the largest legal UPDATE, and 0 the smallest. -/
theorem test_well_formed_bounds : (Instr.update 512).WellFormed ∧ (Instr.update 0).WellFormed := by decide

/-! ### Decoding of words written field by field: RSV1, BITLEN, RSV0, OP (R39) -/

theorem test_decode_init : decode (0b000000#6 ++ 0b0000000000#10 ++ 0b000000000000#12 ++ 0b0001#4) = .ok .init := by
  decide

theorem test_decode_update_24 :
    decode (0b000000#6 ++ 0b0000011000#10 ++ 0b000000000000#12 ++ 0b0010#4) = .ok (.update 24) := by decide

theorem test_decode_update_512 :
    decode (0b000000#6 ++ 0b1000000000#10 ++ 0b000000000000#12 ++ 0b0010#4) = .ok (.update 512) := by decide

theorem test_decode_finalize :
    decode (0b000000#6 ++ 0b0000000000#10 ++ 0b000000000000#12 ++ 0b0011#4) = .ok .finalize := by decide

/-- R88: one word for each of the four causes. -/
theorem test_decode_illegal :
    decode (0b000001#6 ++ 0b0000011000#10 ++ 0b000000000000#12 ++ 0b0010#4) = .error .reservedField ∧
    decode (0b000000#6 ++ 0b0000000000#10 ++ 0b000000000000#12 ++ 0b0100#4) = .error .reservedOp ∧
    decode (0b000000#6 ++ 0b1000000001#10 ++ 0b000000000000#12 ++ 0b0010#4) = .error .bitlenTooLong ∧
    decode (0b000000#6 ++ 0b0000000001#10 ++ 0b000000000000#12 ++ 0b0011#4) = .error .bitlenNotZero := by
  decide

/-- The opcode table's numbering: one 32-bit word, bit 0 the least significant. -/
theorem test_decode_table_word :
    decodeTableWord 32 0x00000001 = some .init ∧ decodeTableWord 32 0x01BF0002 = some (.update 447) ∧
    decodeTableWord 32 0x00000003 = some .finalize ∧ decodeTableWord 32 0x00000000 = none := by decide

/-! ### The primitives (spec/95_test_vectors.md section 2) -/

/-- T2.1, T2.3, T2.4, T2.7, T2.8. -/
theorem test_gmul : gmul 0x57 0x83 = 0xC1 ∧ gmul 0xFF 0x07 = 0xCB ∧ gmul 0x53 0xCA = 0x01 ∧
    xtime 0x7F = 0xFE ∧ xtime 0x80 = 0x1B := by decide

/-- T2.11, T2.13, T2.15; and R53 for 0x53, whose inverse is 0xCA (T2.4). -/
theorem test_sbox : sbox 0x00 = 0x63 ∧ sbox 0x53 = 0xED ∧ sbox 0xFF = 0x16 ∧ sboxAffine 0xCA = 0xED := by decide

/-- T2.19 and T2.20, bytes 8 and 57 of i = 9: C1's published order of the constants. -/
theorem test_round_constants :
    byteAt (toBytes (addRoundConstant .p 9 (toMatrix (zeroBytes 64)))) 8 = 0x19 ∧
    byteAt (toBytes (addRoundConstant .q 9 (toMatrix (zeroBytes 64)))) 15 = 0xE6 ∧
    byteAt (toBytes (addRoundConstant .q 9 (toMatrix (zeroBytes 64)))) 57 = 0xFF := by decide +kernel

/-- T2.23 and T2.24: two bytes of each ShiftBytes of the bytes 0 to 63. -/
theorem test_shift_bytes :
    byteAt (toBytes (shiftBytes .p (toMatrix (Vector.ofFn fun k => BitVec.ofNat 8 k.val)))) 7 = 0x3F ∧
    byteAt (toBytes (shiftBytes .p (toMatrix (Vector.ofFn fun k => BitVec.ofNat 8 k.val)))) 57 = 0x01 ∧
    byteAt (toBytes (shiftBytes .q (toMatrix (Vector.ofFn fun k => BitVec.ofNat 8 k.val)))) 0 = 0x08 ∧
    byteAt (toBytes (shiftBytes .q (toMatrix (Vector.ofFn fun k => BitVec.ofNat 8 k.val)))) 7 = 0x37 := by
  decide +kernel

/-- T2.22: the first column of the circulant matrix. -/
theorem test_mix_bytes :
    (List.range 8).map (byteAt (toBytes (mixBytes (toMatrix (setByte (zeroBytes 64) 0 0x01))))) =
      [0x02, 0x07, 0x05, 0x03, 0x05, 0x04, 0x03, 0x02] := by decide +kernel

/-- T2.25, bytes 8 to 11 of `Round_P` of zeros. -/
theorem test_round_p :
    ((List.range 4).map fun k => byteAt (toBytes (round .p (toMatrix (zeroBytes 64)) 0)) (8 + k)) =
      [0xEC, 0xD7, 0x9E, 0x45] := by decide +kernel

/-- T2.26, bytes 0 to 3 of `Round_Q` of zeros. -/
theorem test_round_q :
    (List.range 4).map (byteAt (toBytes (round .q (toMatrix (zeroBytes 64)) 0))) = [0x6F, 0xEE, 0x76, 0xEE] := by
  decide +kernel

/-! ### One command at a time -/

/-- R74: INIT of a message in progress discards it. -/
theorem test_init : nextIs (exec .init { readyAt 5 3 with ovr := true, result := .errSeq }) (fun t =>
    t.phase = .ready ∧ t.hash.buflen = 0 ∧ t.hash.pend = 0 ∧ byteAt t.hash.cv 62 = 0x01 ∧ t.ovr = false ∧
    t.result = .ok) = true := by decide +kernel

/-- T5.7: STATUS after INIT completes. -/
theorem test_init_status : nextIs (exec .init State.reset) (fun t => statusWord t = 0x00000002#32) = true := by
  decide

/-- T4.9: five bits, stored raw. -/
theorem test_update_5 : nextIs (exec (.update 5) (readyWith [0xAF])) (fun t =>
    t.hash.buflen = 1 ∧ t.hash.pend = 5 ∧ byteAt t.hash.buf 0 = 0xAF ∧ t.hash.blkcnt = 0) = true := by
  decide +kernel

/-- T4.13, T5.9: 511 bits leave BUFLEN = 64 and absorb nothing. -/
theorem test_update_511 : nextIs (exec (.update 511) ready) (fun t =>
    t.hash.blkcnt = 0 ∧ statusWord t = 0x00074002#32) = true := by decide +kernel

/-- T4.1, V1: the digest of the empty message. -/
theorem test_finalize_empty : nextIs (exec .finalize ready) (fun t =>
    t.digest = #v[0x1a, 0x52, 0xd1, 0x1d, 0x55, 0x00, 0x39, 0xbe, 0x16, 0x10, 0x7f, 0x9c, 0x58, 0xdb, 0x9e, 0xbc,
      0xc4, 0x17, 0xf1, 0x6f, 0x73, 0x6a, 0xdb, 0x25, 0x02, 0x56, 0x71, 0x19, 0xf0, 0x08, 0x34, 0x67]) = true := by
  decide +kernel

/-- T5.11: a second FINALIZE. -/
theorem test_finalize_again : nextIs (exec .finalize finalized) (fun t =>
    statusWord t = 0x00000024#32 ∧ t.hash.blkcnt = 1) = true := by decide +kernel

/-- T4.16: decode comes before PEND, and the phase before PEND. -/
theorem test_error_priority :
    nextIs (issueCommand 0x04080002#32 (readyAt 1 3)) (fun t => t.result = .errIllegal) = true ∧
    nextIs (issueCommand 0x00000002#32 (readyAt 1 3)) (fun t => t.result = .errSeq) = true ∧
    nextIs (issueCommand 0x00000002#32 finalized) (fun t => t.result = .errNotReady) = true ∧
    nextIs (issueCommand 0x00000004#32 State.reset) (fun t => t.result = .errIllegal) = true := by decide +kernel

/-- R79: the pad bit of a partial byte, the four corner cases. -/
theorem test_pad_partial : padPartial 1 0x80 = 0xC0 ∧ padPartial 1 0x00 = 0x40 ∧ padPartial 5 0xAF = 0xAC ∧
    padPartial 7 0xFE = 0xFF := by decide

/-- R80, T4.2, T4.3: 55 bytes do not spill and 56 do. -/
theorem test_spill_boundary : (spill (padBit (readyAt 55 0).hash)).buflen = 56 ∧
    (padBit (readyAt 56 0).hash).buflen.toNat > 56 := by decide +kernel

/-! ### The window, one step at a time -/

/-- T5.5: the byte lanes of a STAGE write. -/
theorem test_stage_write : nextIs (step (waiting (.access (.write 0x100 4 0x00636261#32)) ready)) (fun t =>
    byteAt t.stage 0 = 0x61 ∧ byteAt t.stage 1 = 0x62 ∧ byteAt t.stage 2 = 0x63 ∧ t.replies = [.done]) = true := by
  decide +kernel

/-- T5.15: the halves of BLKCNT. -/
theorem test_blkcnt_halves :
    memRead 0x008 { ready with hash := { hashInit with blkcnt := 0x100000005 } } = 0x00000005#32 ∧
    memRead 0x00C { ready with hash := { hashInit with blkcnt := 0x100000005 } } = 0x00000001#32 := by decide

/-- T5.8, T5.13. -/
theorem test_reads : memRead 0x004 (readyAt 1 3) = 0x00030102#32 ∧ memRead 0x010 ready = 0 ∧
    memRead 0x000 ready = 0 ∧ memRead 0x1FC ready = 0 := by decide

/-- T5.12: the first DIGEST word of V1. -/
theorem test_digest_word :
    memRead 0x180 { finalized with digest := Vector.ofFn fun k => [0x1a, 0x52, 0xd1, 0x1d].getD k.val 0 } =
      0x1dd1521a#32 := by decide

/-- T5.14: an 8-bit read and a misaligned one. -/
theorem test_bus_errors :
    nextIs (step (waiting (.access (.read 0x004 1)) ready)) (fun t => t.replies = [.busError]) = true ∧
    nextIs (step (waiting (.access (.read 0x006 4)) ready)) (fun t => t.replies = [.busError]) = true := by
  decide +kernel

/-- R72, R90: an illegal word written while busy sets OVR and no error. -/
theorem test_dropped : nextIs (step (waiting (cmdInput 0x00000000#32) (busyFor 2 1))) (fun t =>
    t.ovr = true ∧ t.result = .ok ∧ t.latLeft = 2) = true := by decide +kernel

/-- R71: the last engine step completes the command. -/
theorem test_engine_completes : nextIs (step (busyFor 1 0)) (fun t => t.busy = false) = true ∧
    nextIs (step (busyFor 2 0)) (fun t => t.busy = true) = true := by decide

/-- R98: reset while a command is in flight. -/
theorem test_reset : nextIs (step (waiting .assertReset (busyFor 2 1))) (fun t =>
    t.busy = false ∧ t.phase = .idle ∧ t.hash = HashState.reset ∧ t.inReset = true) = true := by decide +kernel

/-- R26: an offset outside the window. -/
theorem test_outside_window : step (waiting (.access (.read 0x200 4)) ready) = .fault .outsideWindow := rfl

/-- The very next step runs the placed command word, from reset (log entry 2). -/
theorem test_placed_word :
    nextIs (step (State.reset.withFetchWord 32 0x00000001)) (fun t => t.phase = .ready ∧ t.busy) = true ∧
    nextIs (step (State.reset.withFetchWord 32 0x00080002)) (fun t => t.result = .errNotReady) = true ∧
    nextIs (step (State.reset.withFetchWord 32 0x00000003)) (fun t => t.result = .errNotReady) = true := by
  decide +kernel

/-- R46: the pseudo-instruction STAGE of three bytes is one word write, as T5.5 has it. -/
theorem test_assemble : assemble [.stage [0x61, 0x62, 0x63], .absorb 24] =
    .ok [.access (.write 0x100 4 0x00636261#32), cmdInput 0x00180002#32, .poll] := by decide

/-- R45's refusals, and the choice of log entry 19: WR reaches CMD with an illegal word. -/
theorem test_assemble_bounds :
    assemble [.basic (.update 513)] = .error .updateTooLong ∧ assemble [.basic (.rd 0x200)] = .error .badOffset ∧
    assemble [.basic (.wr 0x000 0x00000000#32)] = .ok [cmdInput 0x00000000#32] := by decide

/-! ### Witnesses: one concrete input that meets all the hypotheses of each statement, at the boundaries of its clauses -/

/-- Any 64 bytes are a block. -/
theorem block_of (f : Fin 64 → Byte) : ∃ block : Bytes 64, ∀ k : Fin 64, block[k] = f k :=
  ⟨Vector.ofFn f, fun k => by simp⟩

theorem test_witness_DecodeOfEncode :
    Instr.init.WellFormed ∧ (Instr.update 0).WellFormed ∧ (Instr.update 512).WellFormed ∧ Instr.finalize.WellFormed := by
  decide

theorem test_witness_EncodeOfDecode : decode 0x02000002#32 = .ok (.update 512) := by decide

theorem test_witness_LegalWords : (512 ≤ 512 ∧ 0 ≤ 512) ∧ State.reset.busy = false ∧
    ¬ ∃ i, decode 0x00000000#32 = .ok i :=
  ⟨by decide, rfl, by rintro ⟨i, h⟩; cases i <;> cases h⟩

theorem test_witness_SboxIsAffineOfInverse :
    (0x53#8 ≠ 0) ∧ (if (0x53 : Byte) = 0 then (0xCA : Byte) = 0 else gmul 0x53 0xCA = 1) ∧
    (if (0 : Byte) = 0 then (0 : Byte) = 0 else gmul 0 0 = 1) := by decide

theorem test_witness_RoundConstants : 0 ≤ 9 ∧ 9 ≤ 9 := by decide

/-- Two matrices that agree in column 7 alone. -/
theorem test_witness_MixBytesLinear :
    ∃ a b : Matrix, a ≠ b ∧ ∀ r : Fin 8, a[r][(7 : Fin 8)] = b[r][(7 : Fin 8)] :=
  ⟨matrixOf fun _ _ => 0, matrixOf fun _ c => if c = 7 then 0 else 1, by decide +kernel, by decide +kernel⟩

theorem test_witness_NotReadyErrors :
    State.reset.phase ≠ .ready ∧ finalized.phase ≠ .ready ∧ (Instr.update 512).WellFormed := by decide

theorem test_witness_SequencingErrors :
    (readyAt 64 7).phase = .ready ∧ (readyAt 64 7).hash.pend ≠ 0 ∧ (Instr.update 0).WellFormed := by decide

/-- The longest UPDATE that absorbs nothing, into an empty buffer and into a nearly full one. -/
theorem test_witness_UpdateBuffers :
    ((readyAt 0 0).phase = .ready ∧ (readyAt 0 0).hash.pend = 0 ∧ (511 : BitVec 10).toNat ≤ 512 ∧
      (readyAt 0 0).hash.buflen.toNat + (511 : BitVec 10).toNat / 8 < 64) ∧
    ((readyAt 63 0).phase = .ready ∧ (readyAt 63 0).hash.pend = 0 ∧ (7 : BitVec 10).toNat ≤ 512 ∧
      (readyAt 63 0).hash.buflen.toNat + (7 : BitVec 10).toNat / 8 < 64) := by decide

/-- A full STAGE into an empty buffer, one byte into the last place, and a full STAGE into a nearly full buffer. -/
theorem test_witness_UpdateAbsorbsOneBlock : ∀ p ∈ [((0 : BitVec 7), (512 : BitVec 10)), (63, 8), (63, 15), (63, 512)],
    (readyAt p.1 0).phase = .ready ∧ (readyAt p.1 0).hash.pend = 0 ∧ p.2.toNat ≤ 512 ∧
    (readyAt p.1 0).hash.buflen.toNat ≤ 63 ∧ 64 ≤ (readyAt p.1 0).hash.buflen.toNat + p.2.toNat / 8 ∧
    ∃ block : Bytes 64, ∀ k : Fin 64, block[k] =
      if k.val < (readyAt p.1 0).hash.buflen.toNat then (readyAt p.1 0).hash.buf[k]
      else byteAt (readyAt p.1 0).stage (k.val - (readyAt p.1 0).hash.buflen.toNat) := by
  intro p hp
  simp only [List.mem_cons, List.not_mem_nil, or_false] at hp
  rcases hp with rfl | rfl | rfl | rfl <;>
    exact ⟨rfl, rfl, by decide, by decide, by decide, block_of _⟩

theorem test_witness_PadPartialByte : (1 ≤ 1 ∧ 1 ≤ 7 ∧ 0 < 8) ∧ (1 ≤ 7 ∧ 7 ≤ 7 ∧ 7 < 8) := by decide

/-- The pad byte at 0 and at 55, as a whole byte and on a partial byte. -/
theorem test_witness_FinalizeOneBlock : ∀ p ∈ [((0 : BitVec 7), (0 : BitVec 3), 0), (55, 0, 55), (1, 1, 0), (56, 7, 55)],
    (readyAt p.1 p.2.1).phase = .ready ∧
    (if (readyAt p.1 p.2.1).hash.pend = 0 then p.2.2 = (readyAt p.1 p.2.1).hash.buflen.toNat
      else p.2.2 + 1 = (readyAt p.1 p.2.1).hash.buflen.toNat) ∧ p.2.2 < 56 ∧
    ∃ block : Bytes 64, ∀ k : Fin 64, block[k] =
      if k.val < p.2.2 then (readyAt p.1 p.2.1).hash.buf[k]
      else if k.val = p.2.2 then
        (if (readyAt p.1 p.2.1).hash.pend = 0 then 0x80#8
          else padPartial (readyAt p.1 p.2.1).hash.pend.toNat (readyAt p.1 p.2.1).hash.buf[k])
      else if k.val < 56 then 0x00#8
      else ((readyAt p.1 p.2.1).hash.blkcnt + 1).extractLsb' (8 * (63 - k.val)) 8 := by
  intro p hp
  simp only [List.mem_cons, List.not_mem_nil, or_false] at hp
  rcases hp with rfl | rfl | rfl | rfl <;>
    exact ⟨rfl, by decide, by decide, block_of _⟩

/-- The pad byte at 56 and at 63, as a whole byte and on a partial byte (BUFLEN = 64). -/
theorem test_witness_FinalizeTwoBlocks : ∀ p ∈ [((56 : BitVec 7), (0 : BitVec 3), 56), (63, 0, 63), (57, 1, 56), (64, 7, 63)],
    (readyAt p.1 p.2.1).phase = .ready ∧
    (if (readyAt p.1 p.2.1).hash.pend = 0 then p.2.2 = (readyAt p.1 p.2.1).hash.buflen.toNat
      else p.2.2 + 1 = (readyAt p.1 p.2.1).hash.buflen.toNat) ∧ 56 ≤ p.2.2 ∧ p.2.2 ≤ 63 ∧
    (∃ block1 : Bytes 64, ∀ k : Fin 64, block1[k] =
      if k.val < p.2.2 then (readyAt p.1 p.2.1).hash.buf[k]
      else if k.val = p.2.2 then
        (if (readyAt p.1 p.2.1).hash.pend = 0 then 0x80#8
          else padPartial (readyAt p.1 p.2.1).hash.pend.toNat (readyAt p.1 p.2.1).hash.buf[k])
      else 0x00#8) ∧
    ∃ block2 : Bytes 64, ∀ k : Fin 64, block2[k] =
      if k.val < 56 then 0x00#8 else ((readyAt p.1 p.2.1).hash.blkcnt + 2).extractLsb' (8 * (63 - k.val)) 8 := by
  intro p hp
  simp only [List.mem_cons, List.not_mem_nil, or_false] at hp
  rcases hp with rfl | rfl | rfl | rfl <;>
    exact ⟨rfl, by decide, by decide, by decide, block_of _, block_of _⟩

/-- Acceptance itself, and the last engine step of the command. -/
theorem test_witness_ErroringCommandWritesOnlyResult :
    State.reset.busy = false ∧ ∃ t, issueCommand 0x00000000#32 State.reset = .next t ∧ t.result ≠ .ok ∧
      0 ≤ t.latLeft ∧ t.latLeft ≤ t.latLeft :=
  ⟨rfl, _, rfl, by decide, Nat.zero_le _, Nat.le_refl _⟩

theorem test_witness_CommandFrame :
    (∃ t, exec .init finalized = .next t) ∧ (∃ t, exec .finalize ready = .next t) ∧
    (∃ t, exec (.update 512) ready = .next t) ∧
    ready.hash.buflen.toNat + ((512 : BitVec 10).toNat + 7) / 8 ≤ 64 :=
  ⟨⟨_, rfl⟩, ⟨_, rfl⟩, ⟨_, rfl⟩, by decide⟩

theorem test_witness_AfterPartialByte : (∃ t, exec (.update 511) ready = .next t ∧ t.result = .ok) ∧
    (511 : BitVec 10).toNat % 8 ≠ 0 ∧ (Instr.update 0).WellFormed :=
  ⟨⟨_, rfl, rfl⟩, by decide, by decide⟩

theorem test_witness_AfterFinalize :
    (∃ t, exec .finalize ready = .next t ∧ t.result = .ok) ∧ (Instr.update 512).WellFormed :=
  ⟨⟨_, rfl, rfl⟩, by decide⟩

/-- One partial byte of five bits, its three low bits other in the second buffer, and another stale byte behind it. -/
theorem test_witness_FinalizeIgnoresStaleBits :
    (readyAt 1 5).phase = .ready ∧ (readyAt 1 5).hash.Streaming ∧
    ∀ k : Fin 64, k.val < (readyAt 1 5).hash.buflen.toNat →
      if (readyAt 1 5).hash.pend ≠ 0 ∧ k.val + 1 = (readyAt 1 5).hash.buflen.toNat then
        ∀ j, 8 - (readyAt 1 5).hash.pend.toNat ≤ j → j < 8 →
          (setByte (setByte (zeroBytes 64) 0 0x07) 1 0xFF)[k].getLsbD j = (readyAt 1 5).hash.buf[k].getLsbD j
      else (setByte (setByte (zeroBytes 64) 0 0x07) 1 0xFF)[k] = (readyAt 1 5).hash.buf[k] := by
  refine ⟨by decide, by decide, ?_⟩
  intro k hk
  have h0 : k = 0 := by
    have : k.val < 1 := hk
    exact Fin.ext (by simp; omega)
  subst h0
  rw [if_pos (by decide)]
  decide +kernel

/-- Nine bits read two bytes; the third differs. -/
theorem test_witness_UpdateReadsOnlyItsBytes :
    (∀ k : Fin 64, k.val < ((9 : BitVec 10).toNat + 7) / 8 →
      (setByte (zeroBytes 64) 2 0xFF)[k] = ready.stage[k]) ∧ ∃ t, exec (.update 9) ready = .next t :=
  ⟨by decide +kernel, ⟨_, rfl⟩⟩

theorem test_witness_UpdateIgnoresStaleBuffer :
    (readyAt 1 0).phase = .ready ∧ (readyAt 1 0).hash.Streaming ∧
    ∀ k : Fin 64, k.val < (readyAt 1 0).hash.buflen.toNat →
      (setByte (zeroBytes 64) 1 0xFF)[k] = (readyAt 1 0).hash.buf[k] := by decide +kernel

/-- 512 bits as 63 whole bytes and the one byte after them. -/
theorem test_witness_SplitUpdate :
    (readyAt 1 0).phase = .ready ∧ (readyAt 1 0).hash.Streaming ∧ (readyAt 1 0).hash.pend = 0 ∧ 8 * 63 + 8 ≤ 512 ∧
    (∀ k, k < 64 → byteAt (zeroBytes 64) k = byteAt (readyAt 1 0).stage (63 + k)) ∧
    ∃ t u, exec (.update (BitVec.ofNat 10 (8 * 63))) (readyAt 1 0) = .next t ∧
      exec (.update (BitVec.ofNat 10 8)) { t with stage := zeroBytes 64 } = .next u := by
  refine ⟨by decide, by decide, by decide, by decide, by decide +kernel, ?_⟩
  obtain ⟨t, ht⟩ := exec_next (.update (BitVec.ofNat 10 (8 * 63))) (readyAt 1 0)
  obtain ⟨u, hu⟩ := exec_next (.update (BitVec.ofNat 10 8)) { t with stage := zeroBytes 64 }
  exact ⟨t, u, ht, hu⟩

/-- No UPDATE at all, and 512 bits and then five. -/
theorem test_witness_PaddedMessageDigest :
    chunksAligned [] = true ∧ chunksAligned [⟨zeroBytes 64, 512⟩, ⟨zeroBytes 64, 5⟩] = true := by decide

/-- Three zero bytes at once, and as one byte and then two (the split of T4.14). -/
theorem test_witness_StreamingEquivalence :
    chunksAligned [⟨zeroBytes 64, 24⟩] = true ∧ chunksAligned [⟨zeroBytes 64, 8⟩, ⟨zeroBytes 64, 16⟩] = true ∧
    messageBits [⟨zeroBytes 64, 24⟩] = messageBits [⟨zeroBytes 64, 8⟩, ⟨zeroBytes 64, 16⟩] ∧
    (∃ s0 s1 t, exec .init State.reset = .next s0 ∧ execChunks [⟨zeroBytes 64, 24⟩] s0 = .next s1 ∧
      exec .finalize s1 = .next t) ∧
    ∃ u0 u1 v, exec .init finalized = .next u0 ∧
      execChunks [⟨zeroBytes 64, 8⟩, ⟨zeroBytes 64, 16⟩] u0 = .next u1 ∧ exec .finalize u1 = .next v :=
  ⟨by decide, by decide, by decide +kernel, ⟨_, _, _, rfl, rfl, rfl⟩, ⟨_, _, _, rfl, rfl, rfl⟩⟩

theorem test_witness_StepRunsDecodedCommand :
    (waiting (cmdInput 0x02000002#32) ready).inputs = .access (.write 0x000 4 0x02000002#32) :: [] ∧
    (waiting (cmdInput 0x02000002#32) ready).busy = false ∧
    (waiting (cmdInput 0x02000002#32) ready).inReset = false ∧ decode 0x02000002#32 = .ok (.update 512) := by decide

theorem test_witness_IllegalWordAccepted :
    (waiting (cmdInput 0x02010002#32) ready).inputs = .access (.write 0x000 4 0x02010002#32) :: [] ∧
    (waiting (cmdInput 0x02010002#32) ready).busy = false ∧
    (waiting (cmdInput 0x02010002#32) ready).inReset = false ∧ legal 0x02010002#32 = false := by decide

theorem test_witness_CommandWhileBusyDropped :
    (waiting (cmdInput 0x00000001#32) (busyFor 1 1)).inputs = .access (.write 0x000 4 0x00000001#32) :: [] ∧
    (waiting (cmdInput 0x00000001#32) (busyFor 1 1)).busy = true ∧
    (waiting (cmdInput 0x00000001#32) (busyFor 1 1)).hostTurns ≠ 0 ∧
    (waiting (cmdInput 0x00000001#32) (busyFor 1 1)).inReset = false := by decide

/-- One state for each of the four conditions. -/
theorem test_witness_ErrorPriority :
    (busyFor 1 0).busy = true ∧ (ready.busy = false ∧ legal 0x00000004#32 = false) ∧
    (finalized.busy = false ∧ (512 : BitVec 10).toNat ≤ 512 ∧ finalized.phase ≠ .ready) ∧
    ((readyAt 1 1).busy = false ∧ (0 : BitVec 10).toNat ≤ 512 ∧ (readyAt 1 1).phase = .ready ∧
      (readyAt 1 1).hash.pend ≠ 0) := by decide

/-- Nothing waits, and something waits but the host has no turn left. -/
theorem test_witness_EngineStepOnlyCompletes :
    ((busyFor 1 3).busy = true ∧ ((busyFor 1 3).inputs = [] ∨ (busyFor 1 3).hostTurns = 0)) ∧
    ((waiting .poll (busyFor 2 0)).busy = true ∧
      ((waiting .poll (busyFor 2 0)).inputs = [] ∨ (waiting .poll (busyFor 2 0)).hostTurns = 0)) := by decide

theorem test_witness_CommandCompletes :
    (waiting .poll (busyFor 3 2)).InWindow ∧ (waiting .poll (busyFor 3 2)).busy = true ∧
    ∀ i ∈ (waiting .poll (busyFor 3 2)).inputs, i ≠ .assertReset ∧ i ≠ .deassertReset :=
  ⟨fun i hi => by cases List.mem_singleton.mp hi; trivial, rfl, by decide⟩

/-- A poll alone, and one with a FINALIZE and another poll behind it. -/
theorem test_witness_PollEndsWithResult :
    ((waiting .poll (busyFor 3 2)).inputs = .poll :: [] ∧ (waiting .poll (busyFor 3 2)).inReset = false) ∧
    ({ busyFor 3 2 with inputs := [.poll, cmdInput 0x00000003#32, .poll] }.inputs =
        .poll :: [cmdInput 0x00000003#32, .poll] ∧
      { busyFor 3 2 with inputs := [.poll, cmdInput 0x00000003#32, .poll] }.inReset = false) := by decide

/-- A state with a command in flight meets the invariant and steps. -/
theorem test_witness_InvariantKept : (busyFor 1 0).Inv ∧ ∃ t, step (busyFor 1 0) = .next t :=
  ⟨by decide, ⟨_, rfl⟩⟩

theorem test_witness_NeverLocksUp :
    (waiting (.access (.read 0x1FF 1)) ready).InWindow ∧
    step (waiting (.access (.write 0x200 4 0)) ready) = .fault .outsideWindow :=
  ⟨fun i hi => by cases List.mem_singleton.mp hi; decide, rfl⟩

theorem test_witness_StatusFields :
    ((readyAt 64 7).inReset = false ∧ (readyAt 64 7).busy = false) ∧
    ((busyFor 1 0).inReset = false ∧ (busyFor 1 0).busy = true) := by decide

theorem test_witness_ReadLanes :
    finalized.inReset = false ∧ finalized.busy = false ∧ (15 < 16 ∧ 3 < 4) ∧ (7 < 8 ∧ 3 < 4) := by decide

theorem test_witness_StageWriteThenRead :
    (busyFor 1 0).inReset = false ∧ 15 < 16 ∧ 3 < 4 ∧ (14 < 16 ∧ 14 ≠ 15) := by decide

/-- The aligned offsets next to CMD and STAGE, and both ends of each reserved range. -/
theorem test_witness_ReservedAndReadOnly :
    (∀ off ∈ [0x004, 0x0FC, 0x140, 0x1FC], off % 4 = 0 ∧ off ≠ 0x000 ∧ (off < 0x100 ∨ 0x140 ≤ off)) ∧
    ready.inReset = false ∧
    (∀ off ∈ [0x000, 0x010, 0x0FC, 0x140, 0x17C, 0x1A0, 0x1FC], off % 4 = 0 ∧
      (off = 0 ∨ (0x010 ≤ off ∧ off < 0x100) ∨ (0x140 ≤ off ∧ off < 0x180) ∨ (0x1A0 ≤ off ∧ off < 0x200))) := by
  decide

theorem test_witness_ReadsWhileBusy :
    (waiting (.access (.read 0x1FC 4)) (busyFor 1 1)).inReset = false ∧
    (waiting (.access (.read 0x1FC 4)) (busyFor 1 1)).busy = true ∧ 7 < 8 ∧ (15 < 16 ∧ 3 < 4) ∧
    (0x1FC < 0x200 ∧ 0x1FC % 4 = 0) ∧
    (waiting (.access (.read 0x1FC 4)) (busyFor 1 1)).inputs = .access (.read 0x1FC 4) :: [] ∧
    (waiting (.access (.read 0x1FC 4)) (busyFor 1 1)).hostTurns ≠ 0 := by decide

/-- An aligned 32-bit read of a free core at the last word, and a narrow read while busy at the last byte. -/
theorem test_witness_ReadsChangeNothing :
    ((waiting (.access (.read 0x1FC 4)) finalized).inputs = .access (.read 0x1FC 4) :: [] ∧
      engineTurn (waiting (.access (.read 0x1FC 4)) finalized) = false ∧ 0x1FC < 0x200 ∧ 4 = 4 ∧ 0x1FC % 4 = 0) ∧
    ((waiting (.access (.read 0x1FF 1)) (busyFor 1 1)).inputs = .access (.read 0x1FF 1) :: [] ∧
      engineTurn (waiting (.access (.read 0x1FF 1)) (busyFor 1 1)) = false ∧ 0x1FF < 0x200) := by decide

/-- A narrow read at the last byte, and a misaligned 32-bit write. -/
theorem test_witness_BusErrors :
    ((waiting (.access (.read 0x1FF 1)) ready).inputs = .access (.read 0x1FF 1) :: [] ∧
      engineTurn (waiting (.access (.read 0x1FF 1)) ready) = false ∧ 0x1FF < 0x200 ∧ (1 ≠ 4 ∨ 0x1FF % 4 ≠ 0)) ∧
    ((waiting (.access (.write 0x002 4 0)) (busyFor 1 1)).inputs = .access (.write 0x002 4 0) :: [] ∧
      engineTurn (waiting (.access (.write 0x002 4 0)) (busyFor 1 1)) = false ∧ 0x002 < 0x200 ∧
      (4 ≠ 4 ∨ 0x002 % 4 ≠ 0)) := by decide

/-- Either edge. -/
theorem test_witness_ResetEvent :
    ((waiting .assertReset (busyFor 2 1)).inputs = .assertReset :: [] ∧
      engineTurn (waiting .assertReset (busyFor 2 1)) = false) ∧
    ((waiting .deassertReset ready).inputs = .deassertReset :: [] ∧
      engineTurn (waiting .deassertReset ready) = false) := by decide

theorem test_witness_AccessDuringReset :
    ((held (.access (.read 0x1FC 4))).inReset = true ∧ engineTurn (held (.access (.read 0x1FC 4))) = false ∧
      0x1FC < 0x200 ∧ 0x1FC % 4 = 0 ∧
      (held (.access (.read 0x1FC 4))).inputs = .access (.read 0x1FC 4) :: []) ∧
    ((held (.access (.write 0x000 4 1))).inReset = true ∧ engineTurn (held (.access (.write 0x000 4 1))) = false ∧
      0x000 < 0x200 ∧ 0x000 % 4 = 0 ∧
      (held (.access (.write 0x000 4 1))).inputs = .access (.write 0x000 4 1) :: []) := by decide

/-- The last STAGE word, while a command is in flight. -/
theorem test_witness_StageWriteAfterAcceptance :
    (waiting (.access (.write 0x13C 4 7)) (busyFor 1 1)).inputs = .access (.write 0x13C 4 7) :: [] ∧
    (waiting (.access (.write 0x13C 4 7)) (busyFor 1 1)).inReset = false ∧
    engineTurn (waiting (.access (.write 0x13C 4 7)) (busyFor 1 1)) = false ∧
    0x100 ≤ 0x13C ∧ 0x13C < 0x140 ∧ 0x13C % 4 = 0 := by decide

/-- Two states that differ in STAGE and in PHASE. -/
theorem test_witness_LatencyIsDataIndependent :
    ready.busy = false ∧ (readyWith [0xFF]).busy = false ∧ ready.hash.buflen = (readyWith [0xFF]).hash.buflen ∧
    ready.hash.pend = (readyWith [0xFF]).hash.pend ∧
    (∃ t, issueCommand 0x02000002#32 ready = .next t) ∧ ∃ v, issueCommand 0x02000002#32 (readyWith [0xFF]) = .next v :=
  ⟨rfl, rfl, rfl, rfl, ⟨_, rfl⟩, ⟨_, rfl⟩⟩

theorem test_witness_WindowAddresses : 0x1FF < 0x200 ∧ windowOffset (groestlBase + 0x1FF) = some 0x1FF :=
  ⟨by decide, by simp [windowOffset, windowSize]⟩

/-- A dropped write sets OVR; an accepted INIT clears it, and so does either edge of reset. -/
theorem test_witness_OverrunFlag :
    (∃ t, step (waiting (cmdInput 0x00000000#32) (busyFor 1 1)) = .next t ∧ (busyFor 1 1).ovr = false ∧
      t.ovr = true ∧ (busyFor 1 1).busy = true ∧ (busyFor 1 1).inReset = false ∧ (busyFor 1 1).hostTurns ≠ 0) ∧
    (∃ t, step (waiting (cmdInput 0x00000001#32) { ready with ovr := true }) = .next t ∧ t.ovr = false) ∧
    (∃ t, step (waiting .assertReset { ready with ovr := true }) = .next t ∧ t.ovr = false) ∧
    ∃ t, step (waiting .deassertReset { ready with ovr := true }) = .next t ∧ t.ovr = false :=
  ⟨⟨_, rfl, rfl, rfl, rfl, rfl, by decide⟩, ⟨_, rfl, rfl⟩, ⟨_, rfl, rfl⟩, ⟨_, rfl, rfl⟩⟩

/-- One step for each change of PHASE. -/
theorem test_witness_PhaseMachine :
    (∃ t, step (waiting .assertReset ready) = .next t ∧ t.phase ≠ ready.phase) ∧
    (∃ t, step (waiting (cmdInput 0x00000001#32) finalized) = .next t ∧ t.phase ≠ finalized.phase) ∧
    ∃ t, step (waiting (cmdInput 0x00000003#32) ready) = .next t ∧ t.phase ≠ ready.phase :=
  ⟨⟨_, rfl, by decide⟩, ⟨_, rfl, by decide⟩, ⟨_, rfl, Phase.noConfusion⟩⟩

/-- A step for each clause: one that writes the HashState, DIGEST and PHASE, RESULT alone, STAGE, OVR; one that sets BUSY
and one that clears it; and an edge of reset. -/
theorem test_witness_WhoWritesWhat :
    (∃ t, step (waiting (cmdInput 0x00080002#32) ready) = .next t ∧ t.hash.buflen ≠ ready.hash.buflen) ∧
    (∃ t, step (waiting (cmdInput 0x00000001#32) { finalized with digest := Vector.replicate 32 0xFF#8 }) = .next t ∧
      byteAt t.digest 0 ≠ byteAt { finalized with digest := Vector.replicate 32 0xFF#8 }.digest 0 ∧
      t.phase ≠ finalized.phase) ∧
    (∃ t, step (waiting (cmdInput 0x00000000#32) ready) = .next t ∧ t.result ≠ ready.result) ∧
    (∃ t, step (waiting (.access (.write 0x100 4 1)) ready) = .next t ∧
      byteAt t.stage 0 ≠ byteAt ready.stage 0) ∧
    (∃ t, step (waiting (cmdInput 0x00000000#32) (busyFor 1 1)) = .next t ∧ t.ovr ≠ (busyFor 1 1).ovr) ∧
    (∃ t, step (waiting (cmdInput 0x00000000#32) ready) = .next t ∧ ready.busy = false ∧ t.busy = true ∧
      ready.inReset = false) ∧
    (∃ t, step (busyFor 1 0) = .next t ∧ (busyFor 1 0).busy = true ∧ t.busy = false) ∧
    (∃ t, step (waiting .assertReset (busyFor 1 1)) = .next t ∧
      engineTurn (waiting .assertReset (busyFor 1 1)) = false) :=
  ⟨⟨_, rfl, by decide +kernel⟩, ⟨_, rfl, by decide +kernel, by decide⟩, ⟨_, rfl, by decide⟩,
    ⟨_, rfl, by decide +kernel⟩, ⟨_, rfl, by decide⟩, ⟨_, rfl, rfl, rfl, rfl⟩, ⟨_, rfl, rfl, by decide⟩,
    ⟨_, rfl, by decide⟩⟩

/-- A step that leaves the hidden bytes hidden, and the FINALIZE that does not. -/
theorem test_witness_ChainingValueIsHidden :
    (∃ t, step (waiting (cmdInput 0x00000001#32) ready) = .next t) ∧
    ∃ t, step (waiting (cmdInput 0x00000003#32) ready) = .next t :=
  ⟨⟨_, rfl⟩, ⟨_, rfl⟩⟩

/-- The last length, offset and byte count that assemble, the first that do not, and two programs that assemble. -/
theorem test_witness_HostStatements :
    512 ≤ 512 ∧ 512 < 513 ∧ (0x1FC % 4 = 0 ∧ 0x1FC ≤ 0x1FC) ∧ (0x1FE % 4 ≠ 0 ∨ 0x1FC < 0x1FE) ∧
    (0x200 % 4 ≠ 0 ∨ 0x1FC < 0x200) ∧ 64 < (List.replicate 65 0xFF#8).length ∧
    assemble [.initw] = .ok [cmdInput 0x00000001#32, .poll] ∧
    assemble [.basic .poll] = .ok [.poll] := by decide

/-- No bytes, five bytes (a last word filled with zeros) and 64. -/
theorem test_witness_StagePseudoInstruction : ∀ n ∈ [0, 5, 64],
    (List.replicate n 0xFF#8).length ≤ 64 ∧ ready.inReset = false ∧ ready.busy = false ∧
    ∃ is, assemble [.stage (List.replicate n 0xFF#8)] = .ok { ready with inputs := is }.inputs := by
  intro n hn
  simp only [List.mem_cons, List.not_mem_nil, or_false] at hn
  rcases hn with rfl | rfl | rfl <;> exact ⟨by decide, rfl, rfl, _, rfl⟩

end Sys2Proof.Tests
end

section
/-! The column-major view of a block (R54), SubBytes and ShiftBytes (R57 to R59), on matrix entries and on the bytes of
a block. A round step is described once on the matrix; `getElem_toBytes` and `getElem_toMatrix` carry it to the bytes. -/

namespace Sys2Proof.Machine

/-! ### The two views undo each other (R54) -/

@[simp] theorem toBytes_toMatrix (s : Bytes 64) : toBytes (toMatrix s) = s := by
  apply Vector.ext
  intro k hk
  have index : 8 * (k / 8) + k % 8 = k := Nat.div_add_mod k 8
  simp [index]

@[simp] theorem toMatrix_toBytes (a : Matrix) : toMatrix (toBytes a) = a := by
  apply matrix_ext
  intro r c hr hc
  have row : (8 * c + r) % 8 = r := by omega
  have column : (8 * c + r) / 8 = c := by omega
  simp [row, column]

/-- Byte 8c + r of the string of a matrix is its entry in row r, column c (R54). -/
theorem byteAt_toBytes_column (a : Matrix) (r c : Nat) (hr : r < 8) (hc : c < 8) :
    byteAt (toBytes a) (8 * c + r) = a[r][c] := by
  rw [byteAt_of_lt _ _ (by omega), ← getElem_toMatrix _ _ _ hr hc]
  simp only [toMatrix_toBytes]

/-- Settles O9: every entry by the byte laws of the two maps, the inverses by splitting an index into row and column. -/
theorem columnMajor : Obligations.ColumnMajor := by
  unfold Obligations.ColumnMajor
  exact ⟨fun s r c => getElem_toMatrix s r c r.isLt c.isLt, fun a k => getElem_toBytes a k k.isLt,
    toBytes_toMatrix, toMatrix_toBytes⟩

/-! ### SubBytes and ShiftBytes (R57 to R59) -/

@[simp] theorem getElem_subBytes (a : Matrix) (r c : Nat) (hr : r < 8) (hc : c < 8) :
    (subBytes a)[r][c] = sbox a[r][c] := by
  simp [subBytes]

@[simp] theorem getElem_shiftBytes (v : Variant) (a : Matrix) (r c : Nat) (hr : r < 8) (hc : c < 8) :
    (shiftBytes v a)[r][c] = a[r][(c + (shiftOffset v ⟨r, hr⟩).val) % 8] := by
  simp [shiftBytes, Fin.val_add]

theorem getElem_toBytes_subBytes_toMatrix (s : Bytes 64) (k : Nat) (h : k < 64) :
    (toBytes (subBytes (toMatrix s)))[k] = sbox s[k] := by
  rw [getElem_toBytes, getElem_subBytes, ← getElem_toBytes, toBytes_toMatrix]

/-- The offsets of Q, (1, 3, 5, 7, 0, 2, 4, 6), in closed form (R59). -/
theorem val_shiftOffset_q (r : Fin 8) :
    (shiftOffset .q r).val = if r.val < 4 then 2 * r.val + 1 else 2 * r.val - 8 := by
  revert r
  decide

theorem byteAt_toBytes_shiftBytes_toMatrix (v : Variant) (s : Bytes 64) (r c : Fin 8) :
    byteAt (toBytes (shiftBytes v (toMatrix s))) (8 * c.val + r.val) =
      byteAt s (8 * ((c.val + (shiftOffset v r).val) % 8) + r.val) := by
  have column : (c.val + (shiftOffset v r).val) % 8 < 8 := Nat.mod_lt _ (by decide)
  calc byteAt (toBytes (shiftBytes v (toMatrix s))) (8 * c.val + r.val)
      = (shiftBytes v (toMatrix s))[r.val][c.val] := byteAt_toBytes_column _ _ _ r.isLt c.isLt
    _ = (toMatrix s)[r.val][(c.val + (shiftOffset v r).val) % 8] := getElem_shiftBytes ..
    _ = byteAt (toBytes (toMatrix s)) (8 * ((c.val + (shiftOffset v r).val) % 8) + r.val) :=
        (byteAt_toBytes_column _ _ _ r.isLt column).symm
    _ = byteAt s (8 * ((c.val + (shiftOffset v r).val) % 8) + r.val) := by rw [toBytes_toMatrix]

/-- Settles O11: SubBytes byte by byte, and ShiftBytes of either variant by its offset. -/
theorem subAndShiftBytes : Obligations.SubAndShiftBytes := by
  unfold Obligations.SubAndShiftBytes
  refine ⟨fun s k => getElem_toBytes_subBytes_toMatrix s k k.isLt, ?shiftP, ?shiftQ⟩
  case shiftP => exact byteAt_toBytes_shiftBytes_toMatrix .p
  case shiftQ =>
    intro s r c
    rw [byteAt_toBytes_shiftBytes_toMatrix, val_shiftOffset_q]

end Sys2Proof.Machine
end

section
/-! A CMD write at the step of the machine (R32, R70): the step is the command issue of the word, acknowledged. What the
issue does with a word that is not legal (R73) and while `BUSY` = 1 (R72) is said once, for every word. -/

namespace Sys2Proof.Machine

/-! ### The decoder reads only legal words (R39 to R43) -/

theorem bitlen_of_decodeNoOperand_ok {i j : Instr} {bitlen : BitVec 10} (h : decodeNoOperand i bitlen = .ok j) :
    bitlen = 0 := by
  unfold decodeNoOperand at h
  split_ifs at h with zero
  exact zero

theorem bitlen_of_decodeUpdate_ok {j : Instr} {bitlen : BitVec 10} (h : decodeUpdate bitlen = .ok j) :
    bitlen.toNat ≤ maxBitlen := by
  unfold decodeUpdate at h
  split_ifs at h with short
  exact short

/-- The branches of `decode` that read an instruction are the cases of `legal` (R43). -/
theorem legal_of_decode_ok {w : Word} {i : Instr} (h : decode w = .ok i) : legal w = true := by
  unfold decode at h
  split_ifs at h with reserved opInit opUpdate opFinalize
  all_goals
    obtain ⟨rsv0, rsv1⟩ := not_or.mp reserved
    refine decide_eq_true ⟨not_not.mp rsv0, not_not.mp rsv1, ?_⟩
  · exact .inl ⟨opInit, bitlen_of_decodeNoOperand_ok h⟩
  · exact .inr (.inl ⟨opUpdate, bitlen_of_decodeUpdate_ok h⟩)
  · exact .inr (.inr ⟨opFinalize, bitlen_of_decodeNoOperand_ok h⟩)

/-! ### Command issue of a dropped and of an illegal word (R72, R73) -/

theorem issueCommand_of_busy (w : Word) {s : State} (hb : s.busy = true) :
    issueCommand w s = .next (dropCommand s) := by
  rcases issueCommand_cases w s with ⟨-, dropped⟩ | ⟨idle, -⟩ | ⟨idle, -⟩
  · exact dropped
  · simp [hb] at idle
  · simp [hb] at idle

theorem issueCommand_of_not_legal {w : Word} {s : State} (hb : s.busy = false) (hw : legal w = false) :
    issueCommand w s = .next (accept w s (raise .errIllegal s)) := by
  rcases issueCommand_cases w s with ⟨busy, -⟩ | ⟨-, -, illegal⟩ | ⟨-, i, t, decoded, -⟩
  · simp [hb] at busy
  · exact illegal
  · simp [legal_of_decode_ok decoded] at hw

/-! ### The step of a CMD write that waits first (R32, R34) -/

theorem step_cmdWrite {s t : State} {w : Word} {rest : List Input}
    (hi : s.inputs = .access (.write 0x000 4 w) :: rest) (host : engineTurn s = false) (hr : s.inReset = false)
    (issued : issueCommand w (takeInput rest s) = .next t) : step s = .next (reply .done t) := by
  rw [step_input s _ rest hi host, inputStep_cmd (takeInput rest s) w hr, issued]

/-- Settles O34: the step issues the word, and a word that is not legal is accepted with ERR_ILLEGAL alone. -/
theorem illegalWordAccepted : Obligations.IllegalWordAccepted := by
  unfold Obligations.IllegalWordAccepted
  intro s w rest hi hb hr hw
  exact step_cmdWrite hi (engineTurn_idle s hb) hr (issueCommand_of_not_legal hb hw)

/-- Settles O35: the step issues the word, which is dropped, and neither the drop nor an engine step writes RESULT. -/
theorem commandWhileBusyDropped : Obligations.CommandWhileBusyDropped := by
  unfold Obligations.CommandWhileBusyDropped
  intro s w rest hi hb turns hr
  refine ⟨?step, ?result⟩
  case step => exact step_cmdWrite hi (engineTurn_host s turns _ rest hi) hr (issueCommand_of_busy w hb)
  case result => simp

end Sys2Proof.Machine
end

section
/-! Errors and their priority (R86 to R92). A command that reports an error only raises its code, so its acceptance is
`accept` of a `raise`; the engine steps after that are counted in closed form. -/

namespace Sys2Proof.Machine

/-! ### The words of UPDATE and FINALIZE (R39 to R41) -/

/-- `BITLEN` stands above the 16 bits that hold `OP`, so the two parts of the word add. -/
theorem toNat_encode_update (bitlen : BitVec 10) :
    (encode (.update bitlen)).toNat = bitlen.toNat * 2 ^ 16 + 2 := by
  have fits : bitlen.toNat * 2 ^ 16 < 2 ^ 32 := by omega
  calc (encode (.update bitlen)).toNat
      = 2 ||| bitlen.toNat * 2 ^ 16 % 2 ^ 32 := by simp [encode, Nat.shiftLeft_eq]
    _ = bitlen.toNat * 2 ^ 16 ||| 2 := by rw [Nat.mod_eq_of_lt fits, Nat.or_comm]
    _ = bitlen.toNat * 2 ^ 16 + 2 := by
        rw [← Nat.shiftLeft_eq, Nat.shiftLeft_add_eq_or_of_lt (by decide)]

/-- Each field of an UPDATE word is a quotient and a remainder of its value. -/
theorem fields_encode_update (bitlen : BitVec 10) :
    cmdOp (encode (.update bitlen)) = 0x2#4 ∧ cmdRsv0 (encode (.update bitlen)) = 0#12 ∧
    cmdBitlen (encode (.update bitlen)) = bitlen ∧ cmdRsv1 (encode (.update bitlen)) = 0#6 := by
  refine ⟨?op, ?rsv0, ?bitlen, ?rsv1⟩
  all_goals
    apply BitVec.eq_of_toNat_eq
    simp only [cmdOp, cmdRsv0, cmdBitlen, cmdRsv1, BitVec.extractLsb'_toNat, toNat_encode_update,
      Nat.shiftRight_eq_div_pow, BitVec.toNat_ofNat]
    omega

theorem decode_encode_update {bitlen : BitVec 10} (hlen : bitlen.toNat ≤ 512) :
    decode (encode (.update bitlen)) = .ok (.update bitlen) := by
  obtain ⟨op, rsv0, operand, rsv1⟩ := fields_encode_update bitlen
  simp [decode, op, rsv0, operand, rsv1, decodeUpdate, hlen]

theorem decode_encode_finalize : decode (encode .finalize) = .ok .finalize := by decide

/-! ### The errors of UPDATE and FINALIZE (R86, R87) -/

theorem exec_update_of_not_ready {bitlen : BitVec 10} {s : State} (hlen : bitlen.toNat ≤ 512)
    (hphase : s.phase ≠ .ready) : exec (.update bitlen) s = .next (raise .errNotReady s) := by
  obtain ⟨t, executed⟩ := exec_next (.update bitlen) s
  rcases execUpdate_cases bitlen s t executed with ⟨long, -⟩ | ⟨-, -, rfl⟩ | ⟨-, ready, -⟩ | ⟨-, ready, -⟩
  · omega
  · exact executed
  · exact absurd ready hphase
  · exact absurd ready hphase

theorem exec_update_of_pending {bitlen : BitVec 10} {s : State} (hlen : bitlen.toNat ≤ 512)
    (hphase : s.phase = .ready) (hpend : s.hash.pend ≠ 0) :
    exec (.update bitlen) s = .next (raise .errSeq s) := by
  obtain ⟨t, executed⟩ := exec_next (.update bitlen) s
  rcases execUpdate_cases bitlen s t executed with ⟨long, -⟩ | ⟨-, notReady, -⟩ | ⟨-, -, -, rfl⟩ | ⟨-, -, whole, -⟩
  · omega
  · exact absurd hphase notReady
  · exact executed
  · exact absurd whole hpend

theorem exec_finalize_of_not_ready {s : State} (hphase : s.phase ≠ .ready) :
    exec .finalize s = .next (raise .errNotReady s) := by
  obtain ⟨t, executed⟩ := exec_next .finalize s
  rcases execFinalize_cases s t executed with ⟨-, rfl⟩ | ⟨ready, -⟩
  · exact executed
  · exact absurd ready hphase

/-- Settles O16: each of the two commands outside READY raises ERR_NOT_READY. -/
theorem notReadyErrors : Obligations.NotReadyErrors := by
  unfold Obligations.NotReadyErrors
  intro s bitlen hphase hlen
  exact ⟨exec_update_of_not_ready hlen hphase, exec_finalize_of_not_ready hphase⟩

/-! ### The first condition that applies is reported (R92) -/

theorem issueCommand_of_decode_ok {w : Word} {i : Instr} {s t : State} (hb : s.busy = false)
    (decoded : decode w = .ok i) (executed : exec i s = .next t) :
    issueCommand w s = .next (accept w s t) := by
  simp [issueCommand, hb, decoded, executed]

/-- Settles O36: the conditions in the order of R92, each from the lemma about the one guard that reports it. -/
theorem errorPriority : Obligations.ErrorPriority := by
  unfold Obligations.ErrorPriority
  refine ⟨?busy, ?illegal, ?updateNotReady, ?finalizeNotReady, ?updatePending⟩
  case busy =>
    intro w s hb
    exact issueCommand_of_busy w hb
  case illegal =>
    intro w s hb hw
    exact issueCommand_of_not_legal hb hw
  case updateNotReady =>
    intro bitlen s hb hlen hphase
    exact issueCommand_of_decode_ok hb (decode_encode_update hlen) (exec_update_of_not_ready hlen hphase)
  case finalizeNotReady =>
    intro s hb hphase
    exact issueCommand_of_decode_ok hb decode_encode_finalize (exec_finalize_of_not_ready hphase)
  case updatePending =>
    intro bitlen s hb hlen hphase hpend
    exact issueCommand_of_decode_ok hb (decode_encode_update hlen) (exec_update_of_pending hlen hphase hpend)

/-! ### An erroring command writes only RESULT and BUSY (R89) -/

theorem exec_eq_raise_of_result_ne_ok {i : Instr} {s t : State} (executed : exec i s = .next t)
    (error : t.result ≠ .ok) : t = raise t.result s := by
  cases i with
  | init =>
    cases executed
    exact absurd rfl error
  | update bitlen =>
    rcases execUpdate_cases bitlen s t executed with ⟨-, rfl⟩ | ⟨-, -, rfl⟩ | ⟨-, -, -, rfl⟩ | ⟨-, -, -, rfl⟩
    · rfl
    · rfl
    · rfl
    · exact absurd rfl error
  | finalize =>
    rcases execFinalize_cases s t executed with ⟨-, rfl⟩ | ⟨-, rfl⟩
    · rfl
    · exact absurd rfl error

theorem issueCommand_eq_accept_raise {w : Word} {s t : State} (hb : s.busy = false)
    (issued : issueCommand w s = .next t) (error : t.result ≠ .ok) : ∃ e, t = accept w s (raise e s) := by
  rcases issueCommand_cases w s with ⟨busy, -⟩ | ⟨-, -, illegal⟩ | ⟨-, i, u, -, executed, accepted⟩
  · simp [hb] at busy
  · cases issued.symm.trans illegal
    exact ⟨_, rfl⟩
  · cases issued.symm.trans accepted
    exact ⟨u.result, congrArg (accept w s) (exec_eq_raise_of_result_ne_ok executed error)⟩

/-- Engine steps count down the command in flight and write nothing but BUSY and the model's own counters (R71). -/
theorem iterate_engineStep (n : Nat) (t : State) :
    engineStep^[n + 1] t = { t with
      busy := decide (n + 1 < t.latLeft), latLeft := t.latLeft - (n + 1),
      hostTurns := Config.hostTurns (t.draws + n), draws := t.draws + (n + 1) } := by
  induction n with
  | zero => rfl
  | succ n ih =>
    have left : (1 < t.latLeft - (n + 1)) = (n + 1 + 1 < t.latLeft) := by
      rw [eq_iff_iff]
      omega
    rw [Function.iterate_succ_apply', ih]
    simp only [engineStep, left]
    rfl

/-- Settles O23: acceptance raises the code, and the engine steps after it, none or more, only count down. -/
theorem erroringCommandWritesOnlyResult : Obligations.ErroringCommandWritesOnlyResult := by
  unfold Obligations.ErroringCommandWritesOnlyResult
  intro w s t hb issued error
  obtain ⟨e, rfl⟩ := issueCommand_eq_accept_raise hb issued error
  have started : 0 < (accept w s (raise e s)).latLeft := Nat.succ_pos _
  refine ⟨rfl, started, fun n _ => ⟨_, rfl, ?_⟩⟩
  cases n with
  | zero =>
    rw [decide_eq_true started]
    rfl
  | succ n =>
    rw [iterate_engineStep]
    rfl

end Sys2Proof.Machine
end

section
/-! What an UPDATE with a partial byte leaves (R104): the phase READY and a pending partial byte, on which each command's
guards then decide. -/

namespace Sys2Proof.Machine

/-- A successful UPDATE passed all of its guards (R75 to R77). -/
theorem exec_update_ok {bitlen : BitVec 10} {s t : State} (executed : exec (.update bitlen) s = .next t)
    (ok : t.result = .ok) :
    s.phase = .ready ∧ t = { s with hash := updateHash bitlen s.stage s.hash, result := .ok } := by
  rcases execUpdate_cases bitlen s t executed with ⟨-, rfl⟩ | ⟨-, -, rfl⟩ | ⟨-, -, -, rfl⟩ | ⟨-, ready, -, rfl⟩
  case inr.inr.inr => exact ⟨ready, rfl⟩
  all_goals cases ok

/-- The number of bits in a partial byte is not 0 and fits PEND's three bits (R77). -/
theorem updateHash_pend_ne_zero {bitlen : BitVec 10} (stage : Bytes 64) (h : HashState)
    (partialByte : bitlen.toNat % 8 ≠ 0) : (updateHash bitlen stage h).pend ≠ 0 := by
  have pend : (updateHash bitlen stage h).pend = BitVec.ofNat 3 (bitlen.toNat % 8) := by
    rcases absorbTail_cases (tailBits bitlen) (byteAt stage (wholeBytes bitlen))
      (absorbBytes h (stage.toList.take (wholeBytes bitlen))) with ⟨whole, -⟩ | ⟨-, pushed⟩
    · exact absurd whole partialByte
    · rw [updateHash, pushed, tailBits]
  intro zero
  have remainder := congrArg BitVec.toNat (pend.symm.trans zero)
  rw [BitVec.toNat_ofNat, Nat.mod_mod] at remainder
  exact partialByte remainder

/-- Settles O25: the UPDATE leaves READY and a pending partial byte, an error for UPDATE alone. -/
theorem afterPartialByte : Obligations.AfterPartialByte := by
  unfold Obligations.AfterPartialByte
  intro s t bitlen bitlen' executed ok partialByte hlen
  obtain ⟨ready, rfl⟩ := exec_update_ok executed ok
  refine ⟨?update, ?finalize, ?init⟩
  case update => exact exec_update_of_pending hlen ready (updateHash_pend_ne_zero s.stage s.hash partialByte)
  case finalize => exact ⟨_, exec_finalize_ready _ ready, rfl, rfl⟩
  case init => exact ⟨_, rfl, rfl, rfl⟩

end Sys2Proof.Machine
end

section
/-! The decoder and the encoder (R39 to R44): a command word is its four fields, so what the decoder reads from them
fixes the word. -/

namespace Sys2Proof.Machine

/-! ### Every legal word is decoded, and a word is its fields (R39 to R43) -/

theorem decode_encode {i : Instr} (wellFormed : i.WellFormed) : decode (encode i) = .ok i := by
  cases i with
  | init => decide
  | update bitlen => exact decode_encode_update wellFormed
  | finalize => exact decode_encode_finalize

/-- Settles O1: the fields of each command's word are those the decoder reads. -/
theorem decodeOfEncode : Obligations.DecodeOfEncode := by
  unfold Obligations.DecodeOfEncode
  intro i wellFormed
  exact decode_encode wellFormed

/-- The four fields of the format fill the 32 bits (R39). -/
theorem word_eq_of_fields {w v : Word} (op : cmdOp w = cmdOp v) (rsv0 : cmdRsv0 w = cmdRsv0 v)
    (bitlen : cmdBitlen w = cmdBitlen v) (rsv1 : cmdRsv1 w = cmdRsv1 v) : w = v := by
  have op := congrArg BitVec.toNat op
  have rsv0 := congrArg BitVec.toNat rsv0
  have bitlen := congrArg BitVec.toNat bitlen
  have rsv1 := congrArg BitVec.toNat rsv1
  simp only [cmdOp, cmdRsv0, cmdBitlen, cmdRsv1, BitVec.extractLsb'_toNat, Nat.shiftRight_eq_div_pow]
    at op rsv0 bitlen rsv1
  apply BitVec.eq_of_toNat_eq
  omega

theorem decodeNoOperand_ok {i j : Instr} {bitlen : BitVec 10} (h : decodeNoOperand i bitlen = .ok j) : j = i := by
  unfold decodeNoOperand at h
  split_ifs at h
  cases h
  rfl

theorem decodeUpdate_ok {j : Instr} {bitlen : BitVec 10} (h : decodeUpdate bitlen = .ok j) : j = .update bitlen := by
  unfold decodeUpdate at h
  split_ifs at h
  cases h
  rfl

/-- Each command is decoded from the one word with its fields (R39 to R43). -/
theorem eq_encode_of_decode_ok {w : Word} {i : Instr} (h : decode w = .ok i) : i.WellFormed ∧ encode i = w := by
  unfold decode at h
  split_ifs at h with reserved opInit opUpdate opFinalize
  all_goals
    obtain ⟨rsv0, rsv1⟩ := not_or.mp reserved
    replace rsv0 := not_not.mp rsv0
    replace rsv1 := not_not.mp rsv1
  · cases decodeNoOperand_ok h
    have noBits := bitlen_of_decodeNoOperand_ok h
    exact ⟨trivial, (word_eq_of_fields opInit rsv0 noBits rsv1).symm⟩
  · cases decodeUpdate_ok h
    obtain ⟨op, zero0, bitlen, zero1⟩ := fields_encode_update (cmdBitlen w)
    exact ⟨bitlen_of_decodeUpdate_ok h, word_eq_of_fields (op.trans opUpdate.symm) (zero0.trans rsv0.symm) bitlen
      (zero1.trans rsv1.symm)⟩
  · cases decodeNoOperand_ok h
    have noBits := bitlen_of_decodeNoOperand_ok h
    exact ⟨trivial, (word_eq_of_fields opFinalize rsv0 noBits rsv1).symm⟩

/-- Settles O2: the branches of the decoder, each of which fixes all four fields of the word. -/
theorem encodeOfDecode : Obligations.EncodeOfDecode := by
  unfold Obligations.EncodeOfDecode
  intro w i decoded
  exact eq_encode_of_decode_ok decoded

theorem decode_ok_iff (w : Word) (i : Instr) : decode w = .ok i ↔ i.WellFormed ∧ encode i = w := by
  constructor
  · exact eq_encode_of_decode_ok
  · rintro ⟨wellFormed, rfl⟩
    exact decode_encode wellFormed

/-- Settles O4: the examples decode by computation. -/
theorem encodingExamples : Obligations.EncodingExamples := by
  unfold Obligations.EncodingExamples
  decide

/-! ### The legal words (R43) -/

/-- The decoder reads an instruction from every word of which `legal` holds (R43). -/
theorem exists_decode_ok_iff_legal (w : Word) : (∃ i, decode w = .ok i) ↔ legal w = true := by
  constructor
  · rintro ⟨i, decoded⟩
    exact legal_of_decode_ok decoded
  · intro h
    obtain ⟨rsv0, rsv1, command⟩ := of_decide_eq_true h
    change cmdRsv0 w = 0 at rsv0
    change cmdRsv1 w = 0 at rsv1
    rcases command with ⟨op, bitlen⟩ | ⟨op, bitlen⟩ | ⟨op, bitlen⟩
    all_goals change cmdOp w = _ at op
    · change cmdBitlen w = 0 at bitlen
      exact ⟨.init, by simp [decode, rsv0, rsv1, op, decodeNoOperand, bitlen]⟩
    · change (cmdBitlen w).toNat ≤ 512 at bitlen
      exact ⟨.update (cmdBitlen w), by simp [decode, rsv0, rsv1, op, decodeUpdate, bitlen]⟩
    · change cmdBitlen w = 0 at bitlen
      exact ⟨.finalize, by simp [decode, rsv0, rsv1, op, decodeNoOperand, bitlen]⟩

/-- The word of an UPDATE as the assembler writes it (R45). -/
theorem encode_update_ofNat {n : Nat} (short : n ≤ 512) :
    encode (.update (BitVec.ofNat 10 n)) = 0x00000002#32 ||| (BitVec.ofNat 32 n <<< 16) := by
  have operand : (BitVec.ofNat 10 n).setWidth 32 = BitVec.ofNat 32 n := by
    apply BitVec.eq_of_toNat_eq
    simp only [BitVec.toNat_setWidth, BitVec.toNat_ofNat]
    omega
  rw [encode, operand]

theorem toNat_ofNat_of_le_512 {n : Nat} (short : n ≤ 512) : (BitVec.ofNat 10 n).toNat = n := by
  rw [BitVec.toNat_ofNat]
  omega

/-- The words of the list are those of the well-formed instructions. -/
theorem exists_encode_eq_iff (w : Word) :
    (∃ i : Instr, i.WellFormed ∧ encode i = w) ↔
      (w = 0x00000001#32 ∨ w = 0x00000003#32 ∨
        ∃ n : Nat, n ≤ 512 ∧ w = 0x00000002#32 ||| (BitVec.ofNat 32 n <<< 16)) := by
  constructor
  · rintro ⟨i, wellFormed, rfl⟩
    cases i with
    | init => exact .inl rfl
    | finalize => exact .inr (.inl rfl)
    | update bitlen =>
      refine .inr (.inr ⟨bitlen.toNat, wellFormed, ?_⟩)
      rw [← encode_update_ofNat wellFormed, BitVec.ofNat_toNat, BitVec.setWidth_eq]
  · rintro (rfl | rfl | ⟨n, short, rfl⟩)
    · exact ⟨.init, trivial, rfl⟩
    · exact ⟨.finalize, trivial, rfl⟩
    · refine ⟨.update (BitVec.ofNat 10 n), ?_, encode_update_ofNat short⟩
      exact (toNat_ofNat_of_le_512 short).trans_le short

theorem updateWord_injective {m n : Nat} (hm : m ≤ 512) (hn : n ≤ 512)
    (h : 0x00000002#32 ||| (BitVec.ofNat 32 m <<< 16) = 0x00000002#32 ||| (BitVec.ofNat 32 n <<< 16)) : m = n := by
  rw [← encode_update_ofNat hm, ← encode_update_ofNat hn] at h
  have values := congrArg BitVec.toNat h
  rw [toNat_encode_update, toNat_encode_update, toNat_ofNat_of_le_512 hm, toNat_ofNat_of_le_512 hn] at values
  omega

/-- Settles O3: the predicate by the branches of the decoder, the list by the words of the well-formed instructions. -/
theorem legalWords : Obligations.LegalWords := by
  unfold Obligations.LegalWords
  refine ⟨?predicate, ?list, ?distinct, ?illegal⟩
  case predicate =>
    intro w
    exact (exists_decode_ok_iff_legal w).trans decide_eq_true_iff
  case list =>
    intro w
    exact (exists_congr fun i => decode_ok_iff w i).trans (exists_encode_eq_iff w)
  case distinct =>
    intro m n hm hn
    exact updateWord_injective hm hn
  case illegal =>
    intro w s hb notDecoded
    rw [exists_decode_ok_iff_legal, Bool.not_eq_true] at notDecoded
    exact issueCommand_of_not_legal hb notDecoded

end Sys2Proof.Machine
end

section
/-! The machine's invariant (R14, R20, R82, R98): the commands keep the bounds of a message in progress, and the cases
of `StepEffect` keep the rest. -/

namespace Sys2Proof.Machine

/-! ### The bounds of a message in progress (R14) -/

theorem streaming_hashInit : hashInit.Streaming := by decide

theorem tailBits_lt (bitlen : BitVec 10) : tailBits bitlen < 8 := Nat.mod_lt _ (by decide)

/-- The number of bits of a partial byte fits PEND (R77). -/
theorem toNat_ofNat_tailBits (bitlen : BitVec 10) : (BitVec.ofNat 3 (tailBits bitlen)).toNat = tailBits bitlen := by
  rw [BitVec.toNat_ofNat]
  exact Nat.mod_eq_of_lt (tailBits_lt bitlen)

theorem streaming_of_whole {h : HashState} (whole : h.pend = 0) : h.Streaming ↔ h.buflen.toNat ≤ 63 := by
  unfold HashState.Streaming
  rw [if_pos whole]

/-- The whole bytes leave at most 63 in the buffer, and the partial byte adds one (R76, R77). -/
theorem streaming_updateHash {h : HashState} (bitlen : BitVec 10) (stage : Bytes 64) (streaming : h.Streaming)
    (whole : h.pend = 0) : (updateHash bitlen stage h).Streaming := by
  rw [streaming_of_whole whole] at streaming
  have bound := absorbBytes_buflen_le h (stage.toList.take (wholeBytes bitlen)) streaming
  have pend := absorbBytes_pend h (stage.toList.take (wholeBytes bitlen))
  unfold updateHash
  rcases absorbTail_cases (tailBits bitlen) (byteAt stage (wholeBytes bitlen))
    (absorbBytes h (stage.toList.take (wholeBytes bitlen))) with ⟨-, same⟩ | ⟨partialByte, pushed⟩
  · rw [same, streaming_of_whole (pend.trans whole)]
    exact bound
  · have pending : BitVec.ofNat 3 (tailBits bitlen) ≠ 0 := by
      intro zero
      exact partialByte ((toNat_ofNat_tailBits bitlen).symm.trans (congrArg BitVec.toNat zero))
    rw [pushed]
    unfold HashState.Streaming
    rw [if_neg pending]
    simp only [pushByte_buflen]
    bv_omega

theorem wiped_wipe {h : HashState} (whole : h.pend = 0) : (wipe h).Wiped := ⟨rfl, rfl, rfl, whole⟩

theorem wiped_reset : HashState.reset.Wiped := ⟨rfl, rfl, rfl, rfl⟩

/-! ### The invariant's part about the message (R14, R31, R82) -/

/-- The first three clauses of the invariant: they speak of the HashState, PHASE and DIGEST alone. -/
def MessageInv (hash : HashState) (phase : Phase) (digest : Bytes 32) : Prop :=
  (if phase = .ready then hash.Streaming else hash.Wiped) ∧
  (phase = .idle → hash.blkcnt = 0) ∧
  (phase ≠ .finalized → digest = zeroBytes 32)

theorem inv_iff (s : State) : s.Inv ↔
    MessageInv s.hash s.phase s.digest ∧ (s.busy = true ↔ 1 ≤ s.latLeft) ∧
      (s.inReset = true → s.hash = HashState.reset ∧ s.phase = .idle ∧ s.stage = zeroBytes 64 ∧
        s.result = .ok ∧ s.ovr = false ∧ s.busy = false) := by
  simp only [State.Inv, MessageInv, and_assoc]

theorem messageInv_reset : MessageInv HashState.reset .idle (zeroBytes 32) :=
  ⟨wiped_reset, fun _ => rfl, fun _ => rfl⟩

theorem messageInv_init : MessageInv hashInit .ready (zeroBytes 32) :=
  ⟨streaming_hashInit, Phase.noConfusion, fun _ => rfl⟩

theorem messageInv_update {h : HashState} {digest : Bytes 32} (bitlen : BitVec 10) (stage : Bytes 64)
    (inv : MessageInv h .ready digest) (whole : h.pend = 0) :
    MessageInv (updateHash bitlen stage h) .ready digest := by
  obtain ⟨streaming, -, zeroDigest⟩ := inv
  exact ⟨streaming_updateHash bitlen stage streaming whole, Phase.noConfusion, zeroDigest⟩

theorem messageInv_finalize (h : HashState) (digest : Bytes 32) :
    MessageInv (wipe (padAndAbsorb h)) .finalized digest :=
  ⟨wiped_wipe (padAndAbsorb_pend h), Phase.noConfusion, fun notFinalized => absurd rfl notFinalized⟩

/-- Settles O41: the fields of the state after reset. -/
theorem invariantAtReset : Obligations.InvariantAtReset := by
  unfold Obligations.InvariantAtReset
  rw [inv_iff]
  exact ⟨messageInv_reset, by decide, Bool.noConfusion⟩

theorem step_keeps_inv {s t : State} (inv : s.Inv) (h : step s = .next t) : t.Inv := by
  rw [inv_iff] at inv ⊢
  obtain ⟨message, inFlight, held⟩ := inv
  cases step_effect s t h with
  | unchanged same =>
    obtain ⟨hash, phase, digest, stage, result, ovr, busy, inReset, latLeft⟩ := same
    rw [hash, phase, digest, stage, result, ovr, busy, inReset, latLeft]
    exact ⟨message, inFlight, held⟩
  | engine hb counted =>
    obtain ⟨hash, phase, digest, -, -, -, busy, inReset, latLeft⟩ := counted
    rw [hash, phase, digest, busy, inReset, latLeft, decide_eq_true_iff]
    refine ⟨message, by omega, fun reset => ?_⟩
    obtain ⟨-, -, -, -, -, free⟩ := held reset
    exact absurd (hb.symm.trans free) Bool.noConfusion
  | reset edge =>
    obtain ⟨-, -, -, -, hash, phase, digest, stage, result, ovr, busy, latLeft⟩ := edge
    rw [hash, phase, digest, stage, result, ovr, busy, latLeft]
    exact ⟨messageInv_reset, by decide, fun _ => ⟨rfl, rfl, rfl, rfl, rfl, rfl⟩⟩
  | stage hr _ same =>
    obtain ⟨hash, phase, digest, -, -, busy, inReset, latLeft⟩ := same
    rw [hash, phase, digest, busy, inReset, latLeft, hr]
    exact ⟨message, inFlight, Bool.noConfusion⟩
  | dropped hr _ _ same =>
    obtain ⟨hash, phase, digest, -, -, -, busy, inReset, latLeft⟩ := same
    rw [hash, phase, digest, busy, inReset, latLeft, hr]
    exact ⟨message, inFlight, Bool.noConfusion⟩
  | accepted _ _ w _ started command =>
    obtain ⟨busy, latLeft, inReset, -⟩ := started
    rw [busy, inReset]
    refine ⟨?_, iff_of_true rfl latLeft, Bool.noConfusion⟩
    rcases command with ⟨-, hash, phase, digest, -⟩ | ⟨-, -, -, hash, digest, phase⟩ |
      ⟨bitlen, -, -, ready, whole, -, -, hash, digest, phase⟩ | ⟨-, -, -, -, hash, digest, phase⟩
    all_goals rw [hash, phase, digest]
    · exact message
    · exact messageInv_init
    · rw [ready] at message
      exact messageInv_update bitlen s.stage message whole
    · exact messageInv_finalize s.hash _

/-- Settles O40: by the cases of `StepEffect`. -/
theorem invariantKept : Obligations.InvariantKept := by
  unfold Obligations.InvariantKept
  intro s t inv h
  exact step_keeps_inv inv h

end Sys2Proof.Machine
end

section
/-! The rules of the register window (R26 to R33, R91, R98), one equation per case of a read and of a write, for proofs
that know which case they are in. -/

namespace Sys2Proof.Machine

/-! ### Aligned writes (R32, R98) -/

theorem memWrite_of_inReset (off : Nat) (v : Word) {s : State} (hr : s.inReset = true) :
    memWrite off v s = .next s := by
  simp [memWrite, hr]

theorem memWrite_cmd (v : Word) {s : State} (hr : s.inReset = false) : memWrite 0x000 v s = issueCommand v s := by
  simp [memWrite, hr, (registerAt_cmd 0).mpr rfl]

theorem memWrite_stage {off : Nat} (v : Word) {s : State} (hr : s.inReset = false) (low : 0x100 ≤ off)
    (high : off < 0x140) :
    memWrite off v s = .next { s with stage := setBusWord s.stage ((off - 0x100) / 4) v } := by
  simp [memWrite, hr, (registerAt_stage off _).mpr ⟨low, high, rfl⟩]

theorem memWrite_ignored {off : Nat} (v : Word) (s : State) (notCmd : off ≠ 0x000)
    (notStage : off < 0x100 ∨ 0x140 ≤ off) : memWrite off v s = .next s := by
  rcases memWrite_cases off v s with ⟨-, ignored⟩ | ⟨-, cmd, -⟩ | ⟨-, low, high, -⟩ | ⟨-, -, -, ignored⟩
  · exact ignored
  · exact absurd cmd notCmd
  · omega
  · exact ignored

/-! ### Host accesses (R26, R28, R91) -/

theorem alignedWord_eq_false {off width : Nat} (misaligned : width ≠ 4 ∨ off % 4 ≠ 0) :
    alignedWord off width = false := by
  simp only [alignedWord, decide_eq_false_iff_not]
  omega

theorem hostWrite_of_outside {off : Nat} (width : Nat) (v : Word) (s : State) (outside : 0x200 ≤ off) :
    hostWrite off width v s = .fault .outsideWindow := by
  simp [hostWrite, windowSize, outside]

theorem hostWrite_of_misaligned {off width : Nat} (v : Word) (s : State) (inside : off < 0x200)
    (misaligned : width ≠ 4 ∨ off % 4 ≠ 0) : hostWrite off width v s = .next (reply .busError s) := by
  simp [hostWrite, windowSize, inside, alignedWord_eq_false misaligned]

theorem hostWrite_of_aligned {off : Nat} {v : Word} {s t : State} (inside : off < 0x200) (aligned : off % 4 = 0)
    (written : memWrite off v s = .next t) : hostWrite off 4 v s = .next (reply .done t) := by
  simp [hostWrite, windowSize, inside, (alignedWord_iff off 4).mpr ⟨rfl, aligned⟩, written]

theorem hostRead_of_outside {off : Nat} (width : Nat) (s : State) (outside : 0x200 ≤ off) :
    hostRead off width s = .fault .outsideWindow := by
  simp [hostRead, windowSize, outside]

theorem hostRead_of_misaligned {off width : Nat} (s : State) (inside : off < 0x200)
    (misaligned : width ≠ 4 ∨ off % 4 ≠ 0) : hostRead off width s = .next (reply .busError s) := by
  simp [hostRead, windowSize, inside, alignedWord_eq_false misaligned]

theorem hostRead_of_aligned {off : Nat} (s : State) (inside : off < 0x200) (aligned : off % 4 = 0) :
    hostRead off 4 s = .next (reply (.data (memRead off s)) (drawn s)) := by
  simp [hostRead, windowSize, inside, (alignedWord_iff off 4).mpr ⟨rfl, aligned⟩]

/-! ### The two turns of the poll loop (R45) -/

theorem pollStep_again {s : State} (inFlight : (memRead 0x004 s).getLsbD 0 = true) :
    pollStep s = .next (reply (.data (memRead 0x004 s)) (drawn { s with inputs := .poll :: s.inputs })) := by
  simp only [pollStep, inFlight, if_true]

theorem pollStep_done {s : State} (free : (memRead 0x004 s).getLsbD 0 = false) :
    pollStep s = .next (reply (.data (memRead 0x004 s)) (drawn s)) := by
  simp only [pollStep, free, Bool.false_eq_true, if_false]

/-! ### Command issue of a word the decoder refuses (R73) -/

theorem issueCommand_of_decode_error {w : Word} {e : DecodeError} {s : State} (hb : s.busy = false)
    (refused : decode w = .error e) : issueCommand w s = .next (accept w s (raise .errIllegal s)) := by
  simp [issueCommand, hb, refused]

/-! ### The step of each kind of turn (R34, R71) -/

theorem step_engine {s : State} (engine : engineTurn s = true) : step s = .next (engineStep s) := by
  simp [step, coreStep, engine]

theorem step_nothing {s : State} (host : engineTurn s = false) (nothing : s.inputs = []) : step s = .next s := by
  simp [step, coreStep, host, nothing]

end Sys2Proof.Machine
end

section
/-! CV and BUF are hidden (R21): a step of the machine never looks at them, but for a FINALIZE, whose DIGEST they make.
`withHidden` puts other values in their place; each function of the step is carried across it. -/

namespace Sys2Proof.Machine

/-- The HashState with other bytes in CV and BUF. -/
def HashState.withHidden (cv buf : Bytes 64) (h : HashState) : HashState := { h with cv := cv, buf := buf }

/-- The state with other bytes in CV and BUF. -/
def State.withHidden (cv buf : Bytes 64) (s : State) : State := { s with hash := s.hash.withHidden cv buf }

/-- Two HashStates that differ at most in CV and BUF. -/
def HashState.EqButHidden (h h' : HashState) : Prop := ∃ cv buf, h' = h.withHidden cv buf

/-- Two states that differ at most in CV and BUF. -/
def State.EqButHidden (s s' : State) : Prop := ∃ cv buf, s' = s.withHidden cv buf

theorem HashState.eqButHidden_iff (h h' : HashState) :
    h.EqButHidden h' ↔ h'.blkcnt = h.blkcnt ∧ h'.buflen = h.buflen ∧ h'.pend = h.pend := by
  constructor
  · rintro ⟨cv, buf, rfl⟩
    exact ⟨rfl, rfl, rfl⟩
  · rintro ⟨blkcnt, buflen, pend⟩
    refine ⟨h'.cv, h'.buf, ?_⟩
    cases h'
    cases blkcnt
    cases buflen
    cases pend
    rfl

theorem State.eqButHidden_rfl (s : State) : s.EqButHidden s := ⟨s.hash.cv, s.hash.buf, rfl⟩

theorem State.eqButHidden_of_hash {s : State} {h h' : HashState} (r : ResultCode) (hash : h.EqButHidden h') :
    State.EqButHidden { s with hash := h, result := r } { s with hash := h', result := r } := by
  obtain ⟨cv, buf, rfl⟩ := hash
  exact ⟨cv, buf, rfl⟩

/-! ### The operations on the HashState count alike -/

theorem pushByte_eqButHidden {h h' : HashState} (b b' : Byte) (hash : h.EqButHidden h') :
    (pushByte b h).EqButHidden (pushByte b' h') := by
  obtain ⟨cv, buf, rfl⟩ := hash
  exact (HashState.eqButHidden_iff _ _).mpr ⟨rfl, rfl, rfl⟩

theorem absorb_eqButHidden {h h' : HashState} (hash : h.EqButHidden h') : (absorb h).EqButHidden (absorb h') := by
  obtain ⟨cv, buf, rfl⟩ := hash
  exact (HashState.eqButHidden_iff _ _).mpr ⟨rfl, rfl, rfl⟩

theorem absorbByte_eqButHidden {h h' : HashState} (b : Byte) (hash : h.EqButHidden h') :
    (absorbByte h b).EqButHidden (absorbByte h' b) := by
  have pushed := pushByte_eqButHidden b b hash
  obtain ⟨-, buflen, -⟩ := (HashState.eqButHidden_iff _ _).mp pushed
  simp only [absorbByte, buflen]
  split
  · exact absorb_eqButHidden pushed
  · exact pushed

theorem absorbBytes_eqButHidden {h h' : HashState} (bs : List Byte) (hash : h.EqButHidden h') :
    (absorbBytes h bs).EqButHidden (absorbBytes h' bs) := by
  induction bs generalizing h h' with
  | nil => exact hash
  | cons b bs ih => exact ih (absorbByte_eqButHidden b hash)

theorem absorbTail_eqButHidden {h h' : HashState} (rem : Nat) (b : Byte) (hash : h.EqButHidden h') :
    (absorbTail rem b h).EqButHidden (absorbTail rem b h') := by
  unfold absorbTail
  split
  · exact hash
  · obtain ⟨cv, buf, pushed⟩ := pushByte_eqButHidden b b hash
    rw [pushed]
    exact ⟨cv, buf, rfl⟩

theorem updateHash_eqButHidden {h h' : HashState} (bitlen : BitVec 10) (stage : Bytes 64)
    (hash : h.EqButHidden h') : (updateHash bitlen stage h).EqButHidden (updateHash bitlen stage h') :=
  absorbTail_eqButHidden _ _ (absorbBytes_eqButHidden _ hash)

theorem padBit_eqButHidden {h h' : HashState} (hash : h.EqButHidden h') :
    (padBit h).EqButHidden (padBit h') := by
  obtain ⟨cv, buf, rfl⟩ := hash
  rw [HashState.eqButHidden_iff]
  unfold padBit HashState.withHidden
  dsimp only
  split <;> exact ⟨rfl, rfl, rfl⟩

theorem spill_eqButHidden {h h' : HashState} (hash : h.EqButHidden h') : (spill h).EqButHidden (spill h') := by
  obtain ⟨cv, buf, rfl⟩ := hash
  rw [HashState.eqButHidden_iff]
  unfold spill HashState.withHidden
  dsimp only
  split <;> exact ⟨rfl, rfl, rfl⟩

/-- What FINALIZE leaves of the HashState does not depend on CV and BUF at all (R82). -/
theorem wipe_padAndAbsorb_withHidden (cv buf : Bytes 64) (h : HashState) :
    wipe (padAndAbsorb (h.withHidden cv buf)) = wipe (padAndAbsorb h) := by
  obtain ⟨blkcnt, -, pend⟩ := (HashState.eqButHidden_iff _ _).mp
    (spill_eqButHidden (padBit_eqButHidden ⟨cv, buf, rfl⟩ : (padBit h).EqButHidden (padBit (h.withHidden cv buf))))
  simp only [wipe, padAndAbsorb, lengthBlock, blkcnt, pend]

/-! ### The commands -/

/-- The step of `s` and that of a state with other bytes in CV and BUF: the states after them still differ at most in
these, or, where a FINALIZE has its effect, in DIGEST alone. -/
def HiddenOrDigest (finalized : Prop) (t t' : State) : Prop :=
  t.EqButHidden t' ∨ (finalized ∧ ∃ digest, t' = { t with digest := digest })

theorem exec_update_of_too_long {bitlen : BitVec 10} {s : State} (long : 512 < bitlen.toNat) :
    exec (.update bitlen) s = .next (raise .errIllegal s) := by
  simp [exec, execUpdate, maxBitlen, long]

theorem exec_withHidden {i : Instr} {s t : State} (cv buf : Bytes 64) (executed : exec i s = .next t) :
    ∃ t', exec i (s.withHidden cv buf) = .next t' ∧
      HiddenOrDigest (i = .finalize ∧ s.phase = .ready) t t' := by
  cases i with
  | init => exact ⟨t, executed, .inl t.eqButHidden_rfl⟩
  | update bitlen =>
    rcases execUpdate_cases bitlen s t executed with ⟨long, rfl⟩ | ⟨short, notReady, rfl⟩ |
      ⟨short, ready, pending, rfl⟩ | ⟨short, ready, whole, rfl⟩
    · exact ⟨_, exec_update_of_too_long long, .inl ⟨cv, buf, rfl⟩⟩
    · exact ⟨_, exec_update_of_not_ready short notReady, .inl ⟨cv, buf, rfl⟩⟩
    · exact ⟨_, exec_update_of_pending short ready pending, .inl ⟨cv, buf, rfl⟩⟩
    · exact ⟨_, exec_update_ready (s.withHidden cv buf) bitlen ready whole short,
        .inl (State.eqButHidden_of_hash .ok (updateHash_eqButHidden bitlen s.stage ⟨cv, buf, rfl⟩))⟩
  | finalize =>
    rcases execFinalize_cases s t executed with ⟨notReady, rfl⟩ | ⟨ready, rfl⟩
    · exact ⟨_, exec_finalize_of_not_ready notReady, .inl ⟨cv, buf, rfl⟩⟩
    · refine ⟨_, exec_finalize_ready (s.withHidden cv buf) ready, .inr ⟨⟨rfl, ready⟩, ?_⟩⟩
      have wiped := wipe_padAndAbsorb_withHidden cv buf s.hash
      exact ⟨_, by rw [State.withHidden, wiped]⟩

theorem HiddenOrDigest.accept {finalized : Prop} {t t' : State} (w : Word) (cv buf : Bytes 64) (s : State)
    (h : HiddenOrDigest finalized t t') :
    HiddenOrDigest finalized (accept w s t) (accept w (s.withHidden cv buf) t') := by
  rcases h with ⟨cv', buf', rfl⟩ | ⟨hf, digest, rfl⟩
  · exact .inl ⟨cv', buf', rfl⟩
  · exact .inr ⟨hf, digest, rfl⟩

theorem HiddenOrDigest.reply {finalized : Prop} {t t' : State} (r : Reply) (h : HiddenOrDigest finalized t t') :
    HiddenOrDigest finalized (reply r t) (reply r t') := by
  rcases h with ⟨cv, buf, rfl⟩ | ⟨hf, digest, rfl⟩
  · exact .inl ⟨cv, buf, rfl⟩
  · exact .inr ⟨hf, digest, rfl⟩

theorem HiddenOrDigest.mono {p q : Prop} {t t' : State} (imp : p → q) (h : HiddenOrDigest p t t') :
    HiddenOrDigest q t t' :=
  h.imp_right fun ⟨hp, digest⟩ => ⟨imp hp, digest⟩

/-! ### The window -/

/-- The step of `s` accepts the FINALIZE word in READY. -/
def FinalizeAccepted (w : Word) (s : State) : Prop := s.busy = false ∧ s.phase = .ready ∧ w = encode .finalize

theorem issueCommand_withHidden {w : Word} {s t : State} (cv buf : Bytes 64) (issued : issueCommand w s = .next t) :
    ∃ t', issueCommand w (s.withHidden cv buf) = .next t' ∧ HiddenOrDigest (FinalizeAccepted w s) t t' := by
  rcases issueCommand_cases w s with ⟨hb, dropped⟩ | ⟨hb, ⟨e, refused⟩, illegal⟩ |
    ⟨hb, i, u, decoded, executed, accepted⟩
  · cases issued.symm.trans dropped
    exact ⟨_, issueCommand_of_busy w hb, .inl ⟨cv, buf, rfl⟩⟩
  · cases issued.symm.trans illegal
    exact ⟨_, issueCommand_of_decode_error hb refused, .inl ⟨cv, buf, rfl⟩⟩
  · cases issued.symm.trans accepted
    obtain ⟨u', executed', related⟩ := exec_withHidden cv buf executed
    refine ⟨_, issueCommand_of_decode_ok hb decoded executed', (related.accept w cv buf s).mono ?_⟩
    rintro ⟨rfl, ready⟩
    exact ⟨hb, ready, (eq_encode_of_decode_ok decoded).2.symm⟩

theorem memRead_withHidden (cv buf : Bytes 64) (off : Nat) (s : State) :
    memRead off (s.withHidden cv buf) = memRead off s := by
  unfold memRead
  cases registerAt off <;> rfl

theorem memWrite_withHidden {off : Nat} {v : Word} {s t : State} (cv buf : Bytes 64)
    (written : memWrite off v s = .next t) :
    ∃ t', memWrite off v (s.withHidden cv buf) = .next t' ∧
      HiddenOrDigest (off = 0x000 ∧ FinalizeAccepted v s) t t' := by
  rcases memWrite_cases off v s with ⟨hr, held⟩ | ⟨hr, rfl, issue⟩ | ⟨hr, low, high, staged⟩ |
    ⟨hr, notCmd, notStage, ignored⟩
  · cases written.symm.trans held
    exact ⟨_, memWrite_of_inReset off v hr, .inl ⟨cv, buf, rfl⟩⟩
  · obtain ⟨t', issued, related⟩ := issueCommand_withHidden cv buf (issue.symm.trans written)
    exact ⟨t', (memWrite_cmd v (s := s.withHidden cv buf) hr).trans issued,
      related.mono fun accepted => ⟨rfl, accepted⟩⟩
  · cases written.symm.trans staged
    exact ⟨_, memWrite_stage v hr low high, .inl ⟨cv, buf, rfl⟩⟩
  · cases written.symm.trans ignored
    exact ⟨_, memWrite_ignored v _ notCmd notStage, .inl ⟨cv, buf, rfl⟩⟩

/-- The input is the write of the FINALIZE word that the state accepts. -/
def FinalizeInput (i : Input) (s : State) : Prop :=
  i = .access (.write 0x000 4 (encode .finalize)) ∧ s.busy = false ∧ s.phase = .ready

theorem hostWrite_withHidden {off width : Nat} {v : Word} {s t : State} (cv buf : Bytes 64)
    (written : hostWrite off width v s = .next t) :
    ∃ t', hostWrite off width v (s.withHidden cv buf) = .next t' ∧
      HiddenOrDigest (FinalizeInput (.access (.write off width v)) s) t t' := by
  rcases hostWrite_cases off width v s with ⟨-, outside⟩ | ⟨inside, misaligned, refused⟩ |
    ⟨inside, rfl, aligned, u, performed, done⟩
  · cases written.symm.trans outside
  · cases written.symm.trans refused
    exact ⟨_, hostWrite_of_misaligned v _ inside misaligned, .inl ⟨cv, buf, rfl⟩⟩
  · cases written.symm.trans done
    obtain ⟨u', performed', related⟩ := memWrite_withHidden cv buf performed
    refine ⟨_, hostWrite_of_aligned inside aligned performed', (related.reply .done).mono ?_⟩
    rintro ⟨rfl, hb, ready, rfl⟩
    exact ⟨rfl, hb, ready⟩

theorem hostRead_withHidden {off width : Nat} {s t : State} (cv buf : Bytes 64)
    (answered : hostRead off width s = .next t) :
    hostRead off width (s.withHidden cv buf) = .next (t.withHidden cv buf) := by
  rcases hostRead_cases off width s with ⟨-, outside⟩ | ⟨inside, misaligned, refused⟩ | ⟨inside, rfl, aligned, data⟩
  · cases answered.symm.trans outside
  · cases answered.symm.trans refused
    exact hostRead_of_misaligned _ inside misaligned
  · cases answered.symm.trans data
    rw [hostRead_of_aligned _ inside aligned, memRead_withHidden]
    rfl

theorem pollStep_withHidden {s t : State} (cv buf : Bytes 64) (polled : pollStep s = .next t) :
    pollStep (s.withHidden cv buf) = .next (t.withHidden cv buf) := by
  cases polled
  unfold pollStep
  rw [memRead_withHidden]
  dsimp only
  split <;> rfl

/-! ### The step -/

theorem inputStep_withHidden {i : Input} {s t : State} (cv buf : Bytes 64) (h : inputStep i s = .next t) :
    ∃ t', inputStep i (s.withHidden cv buf) = .next t' ∧ HiddenOrDigest (FinalizeInput i s) t t' := by
  match i, h with
  | .access (.read off width), h => exact ⟨_, hostRead_withHidden cv buf h, .inl ⟨cv, buf, rfl⟩⟩
  | .access (.write off width v), h => exact hostWrite_withHidden cv buf h
  | .poll, h => exact ⟨_, pollStep_withHidden cv buf h, .inl ⟨cv, buf, rfl⟩⟩
  | .assertReset, h => exact ⟨t, h, .inl t.eqButHidden_rfl⟩
  | .deassertReset, h => exact ⟨t, h, .inl t.eqButHidden_rfl⟩

theorem step_withHidden {s t : State} (cv buf : Bytes 64) (h : step s = .next t) :
    ∃ t', step (s.withHidden cv buf) = .next t' ∧
      HiddenOrDigest (∃ i rest, s.inputs = i :: rest ∧ FinalizeInput i s) t t' := by
  rcases step_cases s with ⟨hb, turn, engine⟩ | ⟨hb, nothing, same⟩ | ⟨host, i, rest, hi, input⟩
  · cases h.symm.trans engine
    have turn' : engineTurn (s.withHidden cv buf) = true := by
      rcases turn with empty | none
      · simp [engineTurn, State.withHidden, hb, empty]
      · simp [engineTurn, State.withHidden, hb, none]
    exact ⟨_, step_engine turn', .inl ⟨cv, buf, rfl⟩⟩
  · cases h.symm.trans same
    exact ⟨_, step_nothing (engineTurn_idle _ hb) nothing, .inl ⟨cv, buf, rfl⟩⟩
  · obtain ⟨t', taken, related⟩ := inputStep_withHidden cv buf (input.symm.trans h)
    exact ⟨t', (step_input (s.withHidden cv buf) i rest hi host).trans taken,
      related.mono fun accepted => ⟨i, rest, hi, accepted⟩⟩

/-- Settles O58: the step of the state with other hidden bytes is that of the state itself, but for the hidden bytes or,
after a FINALIZE, for DIGEST. -/
theorem chainingValueIsHidden : Obligations.ChainingValueIsHidden := by
  unfold Obligations.ChainingValueIsHidden
  intro s t cv buf h
  obtain ⟨t', h', related⟩ := step_withHidden cv buf h
  refine ⟨t', h', ?_⟩
  rcases related with ⟨cv', buf', rfl⟩ | ⟨⟨i, rest, hi, rfl, hb, ready⟩, digest, rfl⟩
  · exact ⟨rfl, .inl rfl⟩
  · exact ⟨rfl, .inr ⟨hb, ready, ⟨rest, hi⟩, rfl⟩⟩

end Sys2Proof.Machine
end

section
/-! What the commands do when their guards have passed (R74 to R77): INIT, and an UPDATE that does or does not fill the
block buffer, in closed form. -/

namespace Sys2Proof.Machine

/-! ### The bytes of IV, of the compression function and of the digest (R65 to R68) -/

/-- 256 stands in the last two bytes, the first of which is 1 (R65). -/
theorem getElem_iv (k : Nat) (h : k < 64) : iv[k] = if k = 62 then 0x01#8 else 0x00#8 := by
  have bytes : ∀ k : Fin 64, (if 56 ≤ k.val then (256#64).extractLsb' (8 * (63 - k.val)) 8 else 0x00#8) =
      if k.val = 62 then 0x01#8 else 0x00#8 := by decide
  calc iv[k] = if 56 ≤ k then (256#64).extractLsb' (8 * (63 - k)) 8 else 0x00#8 := by simp [iv]
    _ = _ := bytes ⟨k, h⟩

theorem getElem_compress (cv m : Bytes 64) (k : Nat) (h : k < 64) :
    (compress cv m)[k] = (permP (xorBytes cv m))[k] ^^^ (permQ m)[k] ^^^ cv[k] := by
  simp [compress]

theorem getElem_digestOf (cv : Bytes 64) (k : Nat) (h : k < 32) :
    (digestOf cv)[k] = byteAt (permP cv) (32 + k) ^^^ byteAt cv (32 + k) := by
  have inside : 32 + k < 64 := by omega
  simp [digestOf, outputTransform, byteAt_of_lt, inside]

/-- Settles O14: each operation byte by byte. -/
theorem compressionBytes : Obligations.CompressionBytes := by
  unfold Obligations.CompressionBytes
  exact ⟨fun k => getElem_iv k k.isLt, fun cv m k => getElem_compress cv m k k.isLt,
    fun cv k => getElem_digestOf cv k k.isLt⟩

/-! ### INIT (R74) -/

/-- Settles O15: INIT has no guard, and the bytes of CV are those of IV. -/
theorem initResult : Obligations.InitResult := by
  unfold Obligations.InitResult
  intro s
  have bytes : iv = Vector.ofFn fun k : Fin 64 => if k.val = 62 then 0x01#8 else 0x00#8 := by
    apply Vector.ext
    intro k hk
    rw [getElem_iv, Vector.getElem_ofFn]
  rw [← bytes]
  rfl

/-! ### UPDATE with a partial byte pending (R86) -/

/-- Settles O17: UPDATE raises ERR_SEQ alone, and FINALIZE does not read RESULT. -/
theorem sequencingErrors : Obligations.SequencingErrors := by
  unfold Obligations.SequencingErrors
  intro s bitlen ready pending short
  refine ⟨exec_update_of_pending short ready pending, ?_⟩
  rw [exec_finalize_ready s ready]
  exact exec_finalize_ready { s with result := .errSeq } ready

/-! ### The bytes an UPDATE takes from STAGE (R76) -/

theorem wholeBytes_le {bitlen : BitVec 10} (short : bitlen.toNat ≤ 512) : wholeBytes bitlen ≤ 64 := by
  unfold wholeBytes
  omega

theorem length_take_stage (stage : Bytes 64) {n : Nat} (short : n ≤ 64) : (stage.toList.take n).length = n := by
  simp [short]

theorem getD_drop_take_stage (stage : Bytes 64) (m n j : Nat) (hj : m + j < n) :
    ((stage.toList.take n).drop m).getD j 0 = byteAt stage (m + j) := by
  rw [← getD_take_stage stage n (m + j) hj, List.getD_eq_getElem?_getD, List.getElem?_drop,
    ← List.getD_eq_getElem?_getD]

theorem getElem_overlay_take (buf stage : Bytes 64) (at0 : Nat) {n : Nat} (short : n ≤ 64) (k : Nat) (hk : k < 64) :
    (overlay buf at0 (stage.toList.take n))[k] =
      if at0 ≤ k ∧ k < at0 + n then byteAt stage (k - at0) else buf[k] := by
  rw [getElem_overlay, length_take_stage stage short]
  split
  · exact getD_take_stage stage n _ (by omega)
  · rfl

/-- The partial byte in closed form: it is stored, and counted when there is one (R77). -/
theorem absorbTail_eq {rem : Nat} (b : Byte) (h : HashState) (hrem : rem < 8) (whole : h.pend = 0) :
    absorbTail rem b h = { h with
      buf := Vector.ofFn fun k => if rem ≠ 0 ∧ k.val = h.buflen.toNat then b else h.buf[k],
      buflen := BitVec.ofNat 7 (h.buflen.toNat + (rem + 7) / 8), pend := BitVec.ofNat 3 rem } := by
  rcases absorbTail_cases rem b h with ⟨rfl, same⟩ | ⟨partialByte, pushed⟩
  · rw [same]
    apply hashState_ext <;> simp [whole]
  · rw [pushed]
    have one : (rem + 7) / 8 = 1 := by omega
    apply hashState_ext
    · rfl
    · intro k hk
      simp [partialByte]
    · rfl
    · simp [one]
    · rfl

theorem absorbBytes_stage_of_room (stage : Bytes 64) (h : HashState) {n : Nat} (short : n ≤ 64)
    (room : h.buflen.toNat + n < 64) :
    absorbBytes h (stage.toList.take n) = { h with
      buf := overlay h.buf h.buflen.toNat (stage.toList.take n), buflen := BitVec.ofNat 7 (h.buflen.toNat + n) } := by
  have length := length_take_stage stage short
  rw [absorbBytes_short h _ (by rw [length]; exact room), length]

theorem ceil_bitlen (bitlen : BitVec 10) :
    (bitlen.toNat + 7) / 8 = wholeBytes bitlen + (tailBits bitlen + 7) / 8 := by
  unfold wholeBytes tailBits
  omega

/-- An UPDATE whose whole bytes leave room appends them and the partial byte (R76, R77). -/
theorem updateHash_of_room {bitlen : BitVec 10} (stage : Bytes 64) {h : HashState} (whole : h.pend = 0)
    (short : bitlen.toNat ≤ 512) (room : h.buflen.toNat + wholeBytes bitlen < 64) :
    updateHash bitlen stage h = { h with
      buf := Vector.ofFn fun k =>
        if h.buflen.toNat ≤ k.val ∧ k.val < h.buflen.toNat + wholeBytes bitlen then
          byteAt stage (k.val - h.buflen.toNat)
        else if tailBits bitlen ≠ 0 ∧ k.val = h.buflen.toNat + wholeBytes bitlen then byteAt stage (wholeBytes bitlen)
        else h.buf[k],
      buflen := BitVec.ofNat 7 (h.buflen.toNat + (bitlen.toNat + 7) / 8),
      pend := BitVec.ofNat 3 (tailBits bitlen) } := by
  have fits := wholeBytes_le short
  have count : (BitVec.ofNat 7 (h.buflen.toNat + wholeBytes bitlen)).toNat = h.buflen.toNat + wholeBytes bitlen := by
    rw [BitVec.toNat_ofNat]
    omega
  rw [updateHash, absorbBytes_stage_of_room stage h fits room, absorbTail_eq _ _ (tailBits_lt bitlen) (by exact whole),
    ceil_bitlen]
  apply hashState_ext
  · rfl
  · intro k hk
    simp only [Vector.getElem_ofFn, Fin.getElem_fin, getElem_overlay_take _ _ _ fits, count]
    by_cases inside : h.buflen.toNat ≤ k ∧ k < h.buflen.toNat + wholeBytes bitlen
    · rw [if_pos inside, if_pos inside, if_neg (by omega)]
    · rw [if_neg inside, if_neg inside]
  · rfl
  · simp only [count, Nat.add_assoc]
  · rfl

/-- Settles O18: the guards pass, and the bytes leave room. -/
theorem updateBuffers : Obligations.UpdateBuffers := by
  unfold Obligations.UpdateBuffers
  intro s bitlen ready whole short room
  rw [exec_update_ready s bitlen ready whole short, updateHash_of_room s.stage whole short room]
  rfl

/-! ### An UPDATE that fills the buffer (R76) -/

/-- The full block: the buffered bytes and the first bytes of STAGE. -/
def filledBlock (h : HashState) (stage : Bytes 64) : Bytes 64 :=
  Vector.ofFn fun k => if k.val < h.buflen.toNat then h.buf[k] else byteAt stage (k.val - h.buflen.toNat)

@[simp] theorem getElem_filledBlock (h : HashState) (stage : Bytes 64) (k : Nat) (hk : k < 64) :
    (filledBlock h stage)[k] = if k < h.buflen.toNat then h.buf[k] else byteAt stage (k - h.buflen.toNat) := by
  simp [filledBlock]

theorem absorbBytes_stage_of_fill (stage : Bytes 64) (h : HashState) {n : Nat} (short : n ≤ 64)
    (bound : h.buflen.toNat ≤ 63) (full : 64 ≤ h.buflen.toNat + n) :
    absorbBytes h (stage.toList.take n) = {
      cv := compress h.cv (filledBlock h stage), blkcnt := h.blkcnt + 1,
      buf := Vector.ofFn fun k =>
        if k.val + 64 < h.buflen.toNat + n then byteAt stage (64 - h.buflen.toNat + k.val)
        else (filledBlock h stage)[k],
      buflen := BitVec.ofNat 7 (h.buflen.toNat + n - 64), pend := h.pend } := by
  have firstBytes : (stage.toList.take n).take (64 - h.buflen.toNat) = stage.toList.take (64 - h.buflen.toNat) := by
    rw [List.take_take, Nat.min_eq_left (by omega)]
  have block : overlay h.buf h.buflen.toNat (stage.toList.take (64 - h.buflen.toNat)) = filledBlock h stage := by
    apply Vector.ext
    intro k hk
    rw [getElem_overlay_take _ _ _ (by omega), getElem_filledBlock]
    by_cases buffered : k < h.buflen.toNat
    · rw [if_pos buffered, if_neg (by omega)]
    · rw [if_neg buffered, if_pos (by omega)]
  have restLength : ((stage.toList.take n).drop (64 - h.buflen.toNat)).length = h.buflen.toNat + n - 64 := by
    rw [List.length_drop, length_take_stage stage short]
    omega
  have empty : (0 : BitVec 7).toNat = 0 := rfl
  rw [← List.take_append_drop (64 - h.buflen.toNat) (stage.toList.take n), absorbBytes_append, firstBytes,
    absorbBytes_full h _ bound (by rw [length_take_stage stage (by omega)]; omega), block,
    absorbBytes_short _ _ (by rw [restLength, empty]; omega)]
  apply hashState_ext
  · rfl
  · intro k hk
    simp only [getElem_overlay, restLength, Vector.getElem_ofFn, Fin.getElem_fin, empty, Nat.zero_le,
      true_and, Nat.zero_add, Nat.sub_zero]
    by_cases inside : k + 64 < h.buflen.toNat + n
    · rw [if_pos inside, if_pos (by omega), getD_drop_take_stage _ _ _ _ (by omega)]
    · rw [if_neg inside, if_neg (by omega)]
  · rfl
  · simp only [restLength, empty, Nat.zero_add]
  · rfl

theorem updateHash_of_fill {bitlen : BitVec 10} (stage : Bytes 64) {h : HashState} (whole : h.pend = 0)
    (short : bitlen.toNat ≤ 512) (bound : h.buflen.toNat ≤ 63) (full : 64 ≤ h.buflen.toNat + wholeBytes bitlen) :
    updateHash bitlen stage h = {
      cv := compress h.cv (filledBlock h stage), blkcnt := h.blkcnt + 1,
      buf := Vector.ofFn fun k =>
        if k.val + 64 < h.buflen.toNat + wholeBytes bitlen then byteAt stage (64 - h.buflen.toNat + k.val)
        else if tailBits bitlen ≠ 0 ∧ k.val + 64 = h.buflen.toNat + wholeBytes bitlen then
          byteAt stage (wholeBytes bitlen)
        else (filledBlock h stage)[k],
      buflen := BitVec.ofNat 7 (h.buflen.toNat + (bitlen.toNat + 7) / 8 - 64),
      pend := BitVec.ofNat 3 (tailBits bitlen) } := by
  have fits := wholeBytes_le short
  have count : (BitVec.ofNat 7 (h.buflen.toNat + wholeBytes bitlen - 64)).toNat =
      h.buflen.toNat + wholeBytes bitlen - 64 := by
    rw [BitVec.toNat_ofNat]
    omega
  have total : h.buflen.toNat + wholeBytes bitlen - 64 + (tailBits bitlen + 7) / 8 =
      h.buflen.toNat + (wholeBytes bitlen + (tailBits bitlen + 7) / 8) - 64 := by omega
  rw [updateHash, absorbBytes_stage_of_fill stage h fits bound full,
    absorbTail_eq _ _ (tailBits_lt bitlen) (by exact whole), ceil_bitlen]
  apply hashState_ext
  · rfl
  · intro k hk
    simp only [Vector.getElem_ofFn, Fin.getElem_fin, count]
    by_cases inside : k + 64 < h.buflen.toNat + wholeBytes bitlen
    · rw [if_pos inside, if_pos inside, if_neg (by omega)]
    · rw [if_neg inside, if_neg inside]
      have place : (k = h.buflen.toNat + wholeBytes bitlen - 64) = (k + 64 = h.buflen.toNat + wholeBytes bitlen) := by
        rw [eq_iff_iff]
        omega
      simp only [place]
  · rfl
  · simp only [count, total]
  · rfl

/-- Settles O19: the guards pass, and the first bytes of STAGE fill the buffer. -/
theorem updateAbsorbsOneBlock : Obligations.UpdateAbsorbsOneBlock := by
  unfold Obligations.UpdateAbsorbsOneBlock
  intro s bitlen block ready whole short bound full bytes
  have filled : filledBlock s.hash s.stage = block := by
    apply Vector.ext
    intro k hk
    rw [getElem_filledBlock]
    exact (bytes ⟨k, hk⟩).symm
  rw [exec_update_ready s bitlen ready whole short, updateHash_of_fill s.stage whole short bound full, filled]
  rfl

end Sys2Proof.Machine
end

section
/-! FINALIZE (R79 to R82): the padded blocks byte by byte, and that neither stale bytes of BUF nor the low bits of a
partial byte are among them. -/

namespace Sys2Proof.Machine

/-! ### The pad bit of a partial byte (R79) -/

/-- The mask keeps the `b` high bits, and the pad bit stands just below them. -/
theorem getLsbD_padPartial {b : Nat} (x : Byte) {j : Nat} (high : b ≤ 7) (hj : j < 8) :
    (padPartial b x).getLsbD j = if 8 - b ≤ j then x.getLsbD j else decide (j = 7 - b) := by
  have mask : ∀ b j : Fin 8,
      (0xFF#8 <<< (8 - b.val)).getLsbD j = decide (8 - b.val ≤ j.val) ∧
      (0x80#8 >>> b.val).getLsbD j = decide (j.val = 7 - b.val) := by decide
  obtain ⟨kept, pad⟩ := mask ⟨b, by omega⟩ ⟨j, hj⟩
  simp only [padPartial, BitVec.getLsbD_or, BitVec.getLsbD_and, kept, pad]
  by_cases valid : 8 - b ≤ j
  · have notPad : j ≠ 7 - b := by omega
    simp [valid, notPad]
  · simp [valid]

/-- Settles O20: the mask and the pad bit, bit by bit. -/
theorem padPartialByte : Obligations.PadPartialByte := by
  unfold Obligations.PadPartialByte
  intro b x j _ high hj
  exact getLsbD_padPartial x high hj

theorem padPartial_congr {b : Nat} {x y : Byte} (high : b ≤ 7)
    (agree : ∀ j, 8 - b ≤ j → j < 8 → x.getLsbD j = y.getLsbD j) : padPartial b x = padPartial b y := by
  apply BitVec.eq_of_getLsbD_eq
  intro j hj
  rw [getLsbD_padPartial x high hj, getLsbD_padPartial y high hj]
  by_cases valid : 8 - b ≤ j
  · rw [if_pos valid, if_pos valid, agree j valid hj]
  · rw [if_neg valid, if_neg valid]

/-! ### The padded blocks (R79 to R81) -/

/-- Where FINALIZE puts the pad bit: after the last whole byte, or into the partial byte (R79). -/
def PadPosition (h : HashState) (pos : Nat) : Prop :=
  if h.pend = 0 then pos = h.buflen.toNat else pos + 1 = h.buflen.toNat

/-- The byte that holds the pad bit, made of the byte `x` of BUF there (R79). -/
def padByte (h : HashState) (x : Byte) : Byte := if h.pend = 0 then 0x80#8 else padPartial h.pend.toNat x

/-- BUF after the pad bit, with zeros from there to byte `stop` (R79 to R81). -/
def paddedBlock (h : HashState) (pos stop : Nat) : Bytes 64 :=
  zeroFill (setByte h.buf pos (padByte h (byteAt h.buf pos))) (pos + 1) stop

theorem getElem_paddedBlock (h : HashState) (pos stop k : Nat) (hk : k < 64) :
    (paddedBlock h pos stop)[k] =
      if pos < k ∧ k < stop then 0x00#8 else if k = pos then padByte h h.buf[k] else h.buf[k] := by
  rw [paddedBlock, getElem_zeroFill, getElem_setByte]
  by_cases pad : k = pos
  · subst pad
    rw [byteAt_of_lt _ _ hk]
    simp
  · simp [pad]

/-- With room for the length field FINALIZE compresses one block (R79, R81). -/
theorem padAndAbsorb_of_room {h : HashState} {pos : Nat} (position : PadPosition h pos) (room : pos < 56) :
    padAndAbsorb h = {
      cv := compress h.cv (putLength (paddedBlock h pos 56) (h.blkcnt + 1)),
      buf := putLength (paddedBlock h pos 56) (h.blkcnt + 1), blkcnt := h.blkcnt + 1,
      buflen := BitVec.ofNat 7 (pos + 1), pend := 0 } := by
  have count : (BitVec.ofNat 7 (pos + 1)).toNat = pos + 1 := by
    rw [BitVec.toNat_ofNat]
    omega
  have padded := padBit_at h pos (by omega) position
  have noSpill : spill (padBit h) = padBit h := by
    rcases spill_cases (padBit h) with ⟨-, same⟩ | ⟨full, -⟩
    · exact same
    · rw [padded] at full
      simp only [count] at full
      omega
  rw [padAndAbsorb, noSpill, padded]
  simp only [lengthBlock, count, paddedBlock, padByte]

/-- Without it FINALIZE compresses the padded block and a second one (R79 to R81). -/
theorem padAndAbsorb_of_spill {h : HashState} {pos : Nat} (position : PadPosition h pos) (full : 56 ≤ pos)
    (inside : pos ≤ 63) :
    padAndAbsorb h = {
      cv := compress (compress h.cv (paddedBlock h pos 64))
        (putLength (zeroFill (paddedBlock h pos 64) 0 56) (h.blkcnt + 2)),
      buf := putLength (zeroFill (paddedBlock h pos 64) 0 56) (h.blkcnt + 2), blkcnt := h.blkcnt + 2,
      buflen := 0, pend := 0 } := by
  have count : (BitVec.ofNat 7 (pos + 1)).toNat = pos + 1 := by
    rw [BitVec.toNat_ofNat]
    omega
  have two : h.blkcnt + 1 + 1 = h.blkcnt + 2 := by rw [BitVec.add_assoc]; rfl
  have padded := padBit_at h pos (by omega) position
  have spilled : spill (padBit h) = absorb { padBit h with buf := paddedBlock h pos 64 } := by
    rcases spill_cases (padBit h) with ⟨short, -⟩ | ⟨-, absorbed⟩
    · rw [padded] at short
      simp only [count] at short
      omega
    · rw [absorbed, padded]
      simp only [count, paddedBlock, padByte]
  rw [padAndAbsorb, spilled, padded]
  simp only [lengthBlock, absorb, two]
  rfl

/-- Settles O21: the one block is the padded one with its length field. -/
theorem finalizeOneBlock : Obligations.FinalizeOneBlock := by
  unfold Obligations.FinalizeOneBlock
  intro s pos block ready position room bytes
  have padded : putLength (paddedBlock s.hash pos 56) (s.hash.blkcnt + 1) = block := by
    apply Vector.ext
    intro k hk
    rw [getElem_putLength, getElem_paddedBlock]
    refine Eq.trans ?_ (bytes ⟨k, hk⟩).symm
    rcases lt_trichotomy k pos with before | rfl | after
    · simp [before, show ¬ 56 ≤ k by omega, show ¬ pos < k by omega, show k ≠ pos by omega]
    · simp [padByte, show ¬ 56 ≤ k by omega]
    · by_cases lengthField : 56 ≤ k
      · simp [lengthField, show ¬ k < pos by omega, show k ≠ pos by omega, show ¬ k < 56 by omega]
      · simp [lengthField, after, show ¬ k < pos by omega, show k ≠ pos by omega, show k < 56 by omega]
  rw [exec_finalize_ready s ready, padAndAbsorb_of_room position room, padded]
  rfl

/-- Settles O22: the padded block is filled with zeros, and the second block is zeros and the length field. -/
theorem finalizeTwoBlocks : Obligations.FinalizeTwoBlocks := by
  unfold Obligations.FinalizeTwoBlocks
  intro s pos block1 block2 ready position full inside bytes1 bytes2
  have padded : paddedBlock s.hash pos 64 = block1 := by
    apply Vector.ext
    intro k hk
    rw [getElem_paddedBlock]
    refine Eq.trans ?_ (bytes1 ⟨k, hk⟩).symm
    rcases lt_trichotomy k pos with before | rfl | after
    · simp [before, show ¬ pos < k by omega, show k ≠ pos by omega]
    · simp [padByte]
    · simp [after, hk, show ¬ k < pos by omega, show k ≠ pos by omega]
  have lengths : putLength (zeroFill block1 0 56) (s.hash.blkcnt + 2) = block2 := by
    apply Vector.ext
    intro k hk
    rw [getElem_putLength, getElem_zeroFill]
    refine Eq.trans ?_ (bytes2 ⟨k, hk⟩).symm
    by_cases lengthField : 56 ≤ k
    · simp [lengthField, show ¬ k < 56 by omega]
    · simp [lengthField, show k < 56 by omega]
  rw [exec_finalize_ready s ready, padAndAbsorb_of_spill position full inside, padded, lengths]
  rfl

/-! ### What does not reach the digest (R10, R79) -/

/-- Two buffers agree in what FINALIZE reads: the whole bytes and the valid bits of a partial byte. -/
def AgreeInValidBits (h : HashState) (buf' : Bytes 64) : Prop :=
  ∀ k : Fin 64, k.val < h.buflen.toNat →
    if h.pend ≠ 0 ∧ k.val + 1 = h.buflen.toNat then
      ∀ j, 8 - h.pend.toNat ≤ j → j < 8 → buf'[k].getLsbD j = h.buf[k].getLsbD j
    else buf'[k] = h.buf[k]

theorem exists_padPosition {h : HashState} (streaming : h.Streaming) : ∃ pos, PadPosition h pos ∧ pos ≤ 63 := by
  unfold HashState.Streaming at streaming
  unfold PadPosition
  split_ifs at streaming ⊢ with whole
  · exact ⟨_, rfl, streaming⟩
  · exact ⟨h.buflen.toNat - 1, by omega, by omega⟩

/-- Below the pad byte the bytes are whole and agree; the pad byte keeps the valid bits alone. -/
theorem getElem_paddedBlock_congr {h : HashState} {buf' : Bytes 64} {pos : Nat} (stop : Nat)
    (position : PadPosition h pos) (agree : AgreeInValidBits h buf') {k : Nat} (hk : k < 64) (below : k < stop) :
    (paddedBlock { h with buf := buf' } pos stop)[k] = (paddedBlock h pos stop)[k] := by
  rw [getElem_paddedBlock, getElem_paddedBlock]
  unfold PadPosition at position
  have agree := agree ⟨k, hk⟩
  rcases lt_trichotomy k pos with before | rfl | after
  · have same : buf'[k] = h.buf[k] := by
      split_ifs at position with whole
      · rw [if_neg (by simp [whole])] at agree
        exact agree (by dsimp only; omega)
      · rw [if_neg (by rintro ⟨-, last⟩; dsimp only at last; omega)] at agree
        exact agree (by dsimp only; omega)
    simp [show ¬ pos < k by omega, show k ≠ pos by omega, same]
  · have same : padByte { h with buf := buf' } buf'[k] = padByte h h.buf[k] := by
      unfold padByte
      split_ifs at position ⊢ with whole
      · rfl
      · rw [if_pos ⟨whole, position⟩] at agree
        exact padPartial_congr (b := h.pend.toNat) (by omega) (agree (by dsimp only; omega))
    simp [same]
  · simp [after, below]

theorem padAndAbsorb_congr {h : HashState} {buf' : Bytes 64} (streaming : h.Streaming)
    (agree : AgreeInValidBits h buf') : padAndAbsorb { h with buf := buf' } = padAndAbsorb h := by
  obtain ⟨pos, position, inside⟩ := exists_padPosition streaming
  by_cases room : pos < 56
  · have block : putLength (paddedBlock { h with buf := buf' } pos 56) (h.blkcnt + 1) =
        putLength (paddedBlock h pos 56) (h.blkcnt + 1) := by
      apply Vector.ext
      intro k hk
      rw [getElem_putLength, getElem_putLength]
      by_cases lengthField : 56 ≤ k
      · rw [if_pos lengthField, if_pos lengthField]
      · rw [if_neg lengthField, if_neg lengthField]
        exact getElem_paddedBlock_congr 56 position agree hk (by omega)
    rw [padAndAbsorb_of_room position room, padAndAbsorb_of_room (by exact position) room, block]
  · have block : paddedBlock { h with buf := buf' } pos 64 = paddedBlock h pos 64 := by
      apply Vector.ext
      intro k hk
      exact getElem_paddedBlock_congr 64 position agree hk hk
    rw [padAndAbsorb_of_spill position (by omega) inside, padAndAbsorb_of_spill (by exact position) (by omega) inside,
      block]

/-- Settles O27: both states pad to the same blocks. -/
theorem finalizeIgnoresStaleBits : Obligations.FinalizeIgnoresStaleBits := by
  unfold Obligations.FinalizeIgnoresStaleBits
  intro s buf' ready streaming agree
  rw [exec_finalize_ready s ready, exec_finalize_ready _ (by exact ready), padAndAbsorb_congr streaming agree]

/-! ### After a FINALIZE (R105) -/

/-- Settles O26: FINALIZE leaves a wiped HashState in FINALIZED, where only INIT passes its guard. -/
theorem afterFinalize : Obligations.AfterFinalize := by
  unfold Obligations.AfterFinalize
  intro s t bitlen executed ok short
  rcases execFinalize_cases s t executed with ⟨-, rfl⟩ | ⟨-, rfl⟩
  · cases ok
  · exact ⟨wiped_wipe (padAndAbsorb_pend _), rfl, exec_update_of_not_ready short Phase.noConfusion,
      exec_finalize_of_not_ready Phase.noConfusion, _, rfl, rfl, rfl, rfl⟩

end Sys2Proof.Machine
end

section
/-! What an UPDATE reads and what the commands leave alone (R10, R16, R17, R76, R77): the frame of the three commands,
the STAGE bytes beyond the length, the stale bytes of BUF, and an UPDATE split at a byte. -/

namespace Sys2Proof.Machine

/-! ### The frame (R16, R17, R19) -/

theorem absorbByte_buf (h : HashState) (b : Byte) : (absorbByte h b).buf = setByte h.buf h.buflen.toNat b := by
  rcases absorbByte_cases h b with ⟨-, pushed⟩ | ⟨-, absorbed⟩
  · rw [pushed, pushByte_buf]
  · rw [absorbed, absorb_buf, pushByte_buf]

/-- Bytes that fit in the buffer leave the others as they are (R76). -/
theorem getElem_absorbBytes_buf_of_outside {h : HashState} {bs : List Byte} (fits : h.buflen.toNat + bs.length ≤ 64)
    {k : Nat} (hk : k < 64) (outside : k < h.buflen.toNat ∨ h.buflen.toNat + bs.length ≤ k) :
    (absorbBytes h bs).buf[k] = h.buf[k] := by
  induction bs generalizing h with
  | nil => rfl
  | cons b bs ih =>
    rw [List.length_cons] at fits outside
    have elsewhere : (absorbByte h b).buf[k] = h.buf[k] := by
      simp only [absorbByte_buf, getElem_setByte]
      exact if_neg (by omega)
    rw [absorbBytes_cons]
    rcases absorbByte_cases h b with ⟨notLast, pushed⟩ | ⟨last, -⟩
    · have count : (absorbByte h b).buflen.toNat = h.buflen.toNat + 1 := by
        rw [pushed, pushByte_buflen]
        bv_omega
      rw [ih (by omega) (by omega), elsewhere]
    · have count : h.buflen.toNat = 63 := congrArg BitVec.toNat last
      have empty : bs = [] := List.eq_nil_of_length_eq_zero (by omega)
      rw [empty, absorbBytes_nil, elsewhere]

theorem updateHash_of_no_tail {bitlen : BitVec 10} (stage : Bytes 64) (h : HashState) (noTail : tailBits bitlen = 0) :
    updateHash bitlen stage h = absorbBytes h (stage.toList.take (wholeBytes bitlen)) := by
  rw [updateHash, noTail]
  rfl

/-- An UPDATE that fits in the buffer leaves every byte of BUF outside those it appends (R76, R77). -/
theorem getElem_updateHash_buf_of_outside {h : HashState} {bitlen : BitVec 10} (stage : Bytes 64) (whole : h.pend = 0)
    (short : bitlen.toNat ≤ 512) (fits : h.buflen.toNat + (bitlen.toNat + 7) / 8 ≤ 64) {k : Nat} (hk : k < 64)
    (outside : k < h.buflen.toNat ∨ h.buflen.toNat + (bitlen.toNat + 7) / 8 ≤ k) :
    (updateHash bitlen stage h).buf[k] = h.buf[k] := by
  rw [ceil_bitlen] at fits outside
  by_cases noTail : tailBits bitlen = 0
  · have length := length_take_stage stage (wholeBytes_le short)
    simp only [updateHash_of_no_tail stage h noTail]
    exact getElem_absorbBytes_buf_of_outside (by omega) hk (by omega)
  · simp only [updateHash_of_room stage whole short (by omega), Vector.getElem_ofFn, Fin.getElem_fin]
    rw [if_neg (by omega), if_neg (by omega)]

/-- Settles O24: each outcome of a command writes the fields of its rule alone. -/
theorem commandFrame : Obligations.CommandFrame := by
  unfold Obligations.CommandFrame
  intro i s t executed
  cases i with
  | init =>
    cases executed
    exact ⟨rfl, rfl, rfl, rfl, rfl, rfl, rfl, rfl, fun _ other => Instr.noConfusion other,
      fun other => Instr.noConfusion other⟩
  | update bitlen =>
    suffices appended : s.hash.buflen.toNat + (bitlen.toNat + 7) / 8 ≤ 64 → ∀ k : Fin 64,
        (k.val < s.hash.buflen.toNat ∨ s.hash.buflen.toNat + (bitlen.toNat + 7) / 8 ≤ k.val) →
        t.hash.buf[k] = s.hash.buf[k] by
      rcases execUpdate_cases bitlen s t executed with ⟨-, rfl⟩ | ⟨-, -, rfl⟩ | ⟨-, -, -, rfl⟩ | ⟨-, -, -, rfl⟩
      all_goals
        refine ⟨rfl, rfl, rfl, rfl, rfl, rfl, rfl, rfl, ?_, fun other => Instr.noConfusion other⟩
        rintro _ ⟨rfl⟩
        exact ⟨rfl, rfl, rfl, appended⟩
    intro fits k outside
    rcases execUpdate_cases bitlen s t executed with ⟨-, rfl⟩ | ⟨-, -, rfl⟩ | ⟨-, -, -, rfl⟩ | ⟨short, -, whole, rfl⟩
    · rfl
    · rfl
    · rfl
    · exact getElem_updateHash_buf_of_outside s.stage whole short fits k.isLt outside
  | finalize =>
    rcases execFinalize_cases s t executed with ⟨-, rfl⟩ | ⟨-, rfl⟩
    all_goals exact ⟨rfl, rfl, rfl, rfl, rfl, rfl, rfl, rfl, fun _ other => Instr.noConfusion other, fun _ => rfl⟩

/-! ### The bytes of STAGE beyond the length (R76, R77) -/

theorem updateHash_congr_stage {stage stage' : Bytes 64} {bitlen : BitVec 10} (h : HashState)
    (short : bitlen.toNat ≤ 512) (agree : ∀ k : Fin 64, k.val < (bitlen.toNat + 7) / 8 → stage'[k] = stage[k]) :
    updateHash bitlen stage' h = updateHash bitlen stage h := by
  have fits := wholeBytes_le short
  rw [ceil_bitlen] at agree
  have wholeEq : stage'.toList.take (wholeBytes bitlen) = stage.toList.take (wholeBytes bitlen) := by
    apply List.ext_getElem (by simp)
    intro k hk _
    rw [length_take_stage stage' fits] at hk
    simp only [List.getElem_take, Vector.getElem_toList]
    exact agree ⟨k, by omega⟩ (by dsimp only; omega)
  by_cases noTail : tailBits bitlen = 0
  · rw [updateHash_of_no_tail stage' h noTail, updateHash_of_no_tail stage h noTail, wholeEq]
  · have inside : wholeBytes bitlen < 64 := by
      unfold wholeBytes tailBits at *
      omega
    have tailEq : byteAt stage' (wholeBytes bitlen) = byteAt stage (wholeBytes bitlen) := by
      rw [byteAt_of_lt _ _ inside, byteAt_of_lt _ _ inside]
      exact agree ⟨_, inside⟩ (by dsimp only; omega)
    rw [updateHash, updateHash, wholeEq, tailEq]

/-- Settles O28: the guards do not look at STAGE, and the effect reads the bytes that agree. -/
theorem updateReadsOnlyItsBytes : Obligations.UpdateReadsOnlyItsBytes := by
  unfold Obligations.UpdateReadsOnlyItsBytes
  intro s t stage' bitlen agree executed
  rcases execUpdate_cases bitlen s t executed with ⟨long, rfl⟩ | ⟨short, notReady, rfl⟩ |
    ⟨short, ready, pending, rfl⟩ | ⟨short, ready, whole, rfl⟩
  · exact exec_update_of_too_long long
  · exact exec_update_of_not_ready short notReady
  · exact exec_update_of_pending short ready pending
  · rw [exec_update_ready _ bitlen (by exact ready) (by exact whole) short,
      updateHash_congr_stage (stage := s.stage) _ short agree]

/-! ### The stale bytes of BUF (R10) -/

/-- Two HashStates that differ at most in the bytes of BUF at BUFLEN and above. -/
def AgreeBelow (h h' : HashState) : Prop :=
  h' = { h with buf := h'.buf } ∧ ∀ k (hk : k < 64), k < h.buflen.toNat → h'.buf[k] = h.buf[k]

theorem pushByte_agreeBelow {h h' : HashState} (b : Byte) (agree : AgreeBelow h h') :
    AgreeBelow (pushByte b h) (pushByte b h') := by
  obtain ⟨same, below⟩ := agree
  have buflen : h'.buflen = h.buflen := by rw [same]
  refine ⟨by rw [same]; rfl, fun k hk valid => ?_⟩
  rw [pushByte_buflen] at valid
  simp only [pushByte_buf, getElem_setByte, buflen]
  by_cases pushed : k = h.buflen.toNat
  · rw [if_pos pushed, if_pos pushed]
  · rw [if_neg pushed, if_neg pushed]
    exact below k hk (by bv_omega)

/-- A full buffer has no stale bytes. -/
theorem absorb_agreeBelow {h h' : HashState} (full : h.buflen = 64) (agree : AgreeBelow h h') :
    AgreeBelow (absorb h) (absorb h') := by
  obtain ⟨same, below⟩ := agree
  have bufEq : h'.buf = h.buf := by
    apply Vector.ext
    intro k hk
    exact below k hk (by rw [full]; exact hk)
  rw [bufEq] at same
  rw [same]
  exact ⟨rfl, fun _ _ _ => rfl⟩

theorem absorbByte_agreeBelow {h h' : HashState} (b : Byte) (agree : AgreeBelow h h') :
    AgreeBelow (absorbByte h b) (absorbByte h' b) := by
  have pushed := pushByte_agreeBelow b agree
  have buflen : (pushByte b h').buflen = (pushByte b h).buflen := by rw [pushed.1]
  simp only [absorbByte, buflen]
  split_ifs with full
  · exact absorb_agreeBelow full pushed
  · exact pushed

theorem absorbBytes_agreeBelow {h h' : HashState} (bs : List Byte) (agree : AgreeBelow h h') :
    AgreeBelow (absorbBytes h bs) (absorbBytes h' bs) := by
  induction bs generalizing h h' with
  | nil => exact agree
  | cons b bs ih => exact ih (absorbByte_agreeBelow b agree)

theorem updateHash_agreeBelow {h h' : HashState} (bitlen : BitVec 10) (stage : Bytes 64) (agree : AgreeBelow h h') :
    AgreeBelow (updateHash bitlen stage h) (updateHash bitlen stage h') := by
  have absorbed := absorbBytes_agreeBelow (stage.toList.take (wholeBytes bitlen)) agree
  unfold updateHash absorbTail
  split_ifs
  · exact absorbed
  · obtain ⟨same, below⟩ := pushByte_agreeBelow (byteAt stage (wholeBytes bitlen)) absorbed
    exact ⟨by rw [same], below⟩

/-- Settles O29: the guards do not look at BUF, and the effect keeps the agreement below BUFLEN. -/
theorem updateIgnoresStaleBuffer : Obligations.UpdateIgnoresStaleBuffer := by
  unfold Obligations.UpdateIgnoresStaleBuffer
  intro s buf' bitlen ready _ agree
  obtain ⟨t, executed⟩ := exec_next (.update bitlen) s
  rcases execUpdate_cases bitlen s t executed with ⟨long, rfl⟩ | ⟨-, notReady, -⟩ |
    ⟨short, -, pending, rfl⟩ | ⟨short, -, whole, rfl⟩
  · exact ⟨_, _, executed, exec_update_of_too_long long, rfl, agree⟩
  · exact absurd ready notReady
  · exact ⟨_, _, executed, exec_update_of_pending short ready pending, rfl, agree⟩
  · have start : AgreeBelow s.hash { s.hash with buf := buf' } := ⟨rfl, fun k hk => agree ⟨k, hk⟩⟩
    obtain ⟨same, below⟩ := updateHash_agreeBelow bitlen s.stage start
    exact ⟨_, _, executed, exec_update_ready _ bitlen ready whole short, by rw [same], fun k => below k k.isLt⟩

/-! ### An UPDATE split at a byte (R76, R77, R83) -/

theorem drop_take_stage {stage stage' : Bytes 64} {a m : Nat} (fits : a + m ≤ 64)
    (shifted : ∀ k, k < 64 → byteAt stage' k = byteAt stage (a + k)) :
    (stage.toList.drop a).take m = stage'.toList.take m := by
  apply List.ext_getElem
  · simp only [List.length_take, List.length_drop, Vector.length_toList]
    omega
  · intro k hk hk'
    rw [length_take_stage stage' (by omega)] at hk'
    have byte := shifted k (by omega)
    rw [byteAt_of_lt _ _ (by omega), byteAt_of_lt _ _ (by omega)] at byte
    simpa using byte.symm

theorem wholeBytes_ofNat {n : Nat} (short : n ≤ 512) : wholeBytes (BitVec.ofNat 10 n) = n / 8 := by
  rw [wholeBytes, toNat_ofNat_of_le_512 short]

theorem tailBits_ofNat {n : Nat} (short : n ≤ 512) : tailBits (BitVec.ofNat 10 n) = n % 8 := by
  rw [tailBits, toNat_ofNat_of_le_512 short]

/-- An UPDATE of whole bytes is the loop over them alone (R76). -/
theorem updateHash_of_whole_bytes (stage : Bytes 64) (h : HashState) {a : Nat} (short : 8 * a ≤ 512) :
    updateHash (BitVec.ofNat 10 (8 * a)) stage h = absorbBytes h (stage.toList.take a) := by
  have count : wholeBytes (BitVec.ofNat 10 (8 * a)) = a := by
    rw [wholeBytes_ofNat short]
    omega
  have noTail : tailBits (BitVec.ofNat 10 (8 * a)) = 0 := by
    rw [tailBits_ofNat short]
    omega
  rw [updateHash_of_no_tail stage h noTail, count]

theorem updateHash_split {stage stage' : Bytes 64} (h : HashState) {a b : Nat} (fits : 8 * a + b ≤ 512)
    (shifted : ∀ k, k < 64 → byteAt stage' k = byteAt stage (a + k)) :
    updateHash (BitVec.ofNat 10 (8 * a + b)) stage h =
      updateHash (BitVec.ofNat 10 b) stage' (updateHash (BitVec.ofNat 10 (8 * a)) stage h) := by
  have count : (8 * a + b) / 8 = a + b / 8 := by omega
  have tail : (8 * a + b) % 8 = b % 8 := by omega
  have tailByte : byteAt stage (a + b / 8) = byteAt stage' (b / 8) := by
    by_cases inside : b / 8 < 64
    · exact (shifted _ inside).symm
    · rw [byteAt_of_le _ _ (by omega), byteAt_of_le _ _ (by omega)]
  rw [updateHash_of_whole_bytes stage h (by omega), updateHash, updateHash, wholeBytes_ofNat fits, tailBits_ofNat fits,
    wholeBytes_ofNat (by omega), tailBits_ofNat (by omega), count, tail, tailByte, List.take_add, absorbBytes_append,
    drop_take_stage (by omega) shifted]

/-- Settles O30: all three UPDATEs pass their guards, and the loop over the bytes splits. -/
theorem splitUpdate : Obligations.SplitUpdate := by
  unfold Obligations.SplitUpdate
  intro s t u stage' a b ready _ whole fits shifted first second
  have short : ∀ {n : Nat}, n ≤ 512 → (BitVec.ofNat 10 n).toNat ≤ 512 :=
    fun hn => (toNat_ofNat_of_le_512 hn).trans_le hn
  cases first.symm.trans (exec_update_ready s _ ready whole (short (by omega)))
  have whole' : (updateHash (BitVec.ofNat 10 (8 * a)) s.stage s.hash).pend = 0 := by
    rw [updateHash_of_whole_bytes s.stage s.hash (by omega), absorbBytes_pend, whole]
  cases second.symm.trans (exec_update_ready _ _ ready whole' (short (by omega)))
  rw [exec_update_ready s _ ready whole (short fits), updateHash_split s.hash fits shifted]

end Sys2Proof.Machine
end

section
/-! What every step of the machine does (R34, R71): it answers a next state unless the transaction lies outside the
window, and it writes each piece of the core's state only as its rule says. -/

namespace Sys2Proof.Machine

/-! ### The step of an accepted command and of the engine (R32, R70, R71) -/

/-- Settles O33: the step issues the word, and the issue runs the decoded command. -/
theorem stepRunsDecodedCommand : Obligations.StepRunsDecodedCommand := by
  unfold Obligations.StepRunsDecodedCommand
  intro s w i rest hi hb hr decoded
  obtain ⟨t, executed⟩ := exec_next i (takeInput rest s)
  exact ⟨t, executed, step_cmdWrite hi (engineTurn_idle s hb) hr (issueCommand_of_decode_ok hb decoded executed), rfl⟩

theorem engineTurn_iff (s : State) : engineTurn s = true ↔ s.busy = true ∧ (s.inputs = [] ∨ s.hostTurns = 0) := by
  simp [engineTurn]

/-- Settles O37: the step is `engineStep`. -/
theorem engineStepOnlyCompletes : Obligations.EngineStepOnlyCompletes := by
  unfold Obligations.EngineStepOnlyCompletes
  intro s hb turn
  exact ⟨engineStep s, step_engine ((engineTurn_iff s).mpr ⟨hb, turn⟩), rfl, rfl, decide_eq_true_iff⟩

theorem issueCommand_latLeft {w : Word} {s t : State} (hb : s.busy = false) (issued : issueCommand w s = .next t) :
    t.latLeft = latency w s.hash.buflen s.hash.pend := by
  rcases issueCommand_cases w s with ⟨busy, -⟩ | ⟨-, -, illegal⟩ | ⟨-, i, u, -, -, accepted⟩
  · simp [hb] at busy
  · cases issued.symm.trans illegal
    rfl
  · cases issued.symm.trans accepted
    rfl

/-- Settles O53: acceptance gives the engine `latency` steps, a function of the word, BUFLEN and PEND. -/
theorem latencyIsDataIndependent : Obligations.LatencyIsDataIndependent := by
  unfold Obligations.LatencyIsDataIndependent
  intro w s u t v hs hu buflen pend issued issued'
  rw [issueCommand_latLeft hs issued, issueCommand_latLeft hu issued', buflen, pend]
  exact ⟨rfl, Nat.succ_pos _⟩

/-! ### The core never locks up (R87, R93) -/

theorem exec_inputs {i : Instr} {s t : State} (executed : exec i s = .next t) : t.inputs = s.inputs := by
  obtain ⟨-, -, -, -, -, -, inputs, -⟩ := commandFrame i s t executed
  exact inputs

theorem issueCommand_inputs {w : Word} {s t : State} (issued : issueCommand w s = .next t) : t.inputs = s.inputs := by
  rcases issueCommand_cases w s with ⟨-, dropped⟩ | ⟨-, -, illegal⟩ | ⟨-, i, u, -, executed, accepted⟩
  · cases issued.symm.trans dropped
    rfl
  · cases issued.symm.trans illegal
    rfl
  · cases issued.symm.trans accepted
    exact exec_inputs (t := u) executed

theorem memWrite_inputs {off : Nat} {v : Word} {s t : State} (written : memWrite off v s = .next t) :
    t.inputs = s.inputs := by
  rcases memWrite_cases off v s with ⟨-, e⟩ | ⟨-, -, e⟩ | ⟨-, -, -, e⟩ | ⟨-, -, -, e⟩
  · cases written.symm.trans e
    rfl
  · exact issueCommand_inputs (e.symm.trans written)
  · cases written.symm.trans e
    rfl
  · cases written.symm.trans e
    rfl

/-- An input that lies in the window is answered, and what waits behind it still waits; a poll may wait again. -/
theorem inputStep_of_inWindow {i : Input} (inWindow : i.InWindow) (s : State) :
    ∃ t, inputStep i s = .next t ∧ (t.inputs = s.inputs ∨ i = .poll ∧ t.inputs = i :: s.inputs) := by
  match i, inWindow with
  | .access (.read off width), inside =>
    rcases hostRead_cases off width s with ⟨outside, -⟩ | ⟨-, -, refused⟩ | ⟨-, -, -, data⟩
    · exact absurd inside (Nat.not_lt.mpr outside)
    · exact ⟨_, refused, .inl rfl⟩
    · exact ⟨_, data, .inl rfl⟩
  | .access (.write off width v), inside =>
    rcases hostWrite_cases off width v s with ⟨outside, -⟩ | ⟨-, -, refused⟩ | ⟨-, -, -, t, written, done⟩
    · exact absurd inside (Nat.not_lt.mpr outside)
    · exact ⟨_, refused, .inl rfl⟩
    · exact ⟨_, done, .inl (memWrite_inputs (t := t) written)⟩
  | .poll, _ =>
    cases inFlight : (memRead 0x004 s).getLsbD 0 with
    | true => exact ⟨_, pollStep_again inFlight, .inr ⟨rfl, rfl⟩⟩
    | false => exact ⟨_, pollStep_done inFlight, .inl rfl⟩
  | .assertReset, _ => exact ⟨_, rfl, .inl rfl⟩
  | .deassertReset, _ => exact ⟨_, rfl, .inl rfl⟩

/-- An input outside the window is a transaction, and stops the model (R26). -/
theorem inputStep_of_outside {i : Input} (outside : ¬ i.InWindow) (s : State) :
    inputStep i s = .fault .outsideWindow ∧
      ∃ off width v, windowSize ≤ off ∧ (i = .access (.read off width) ∨ i = .access (.write off width v)) := by
  match i, outside with
  | .access (.read off width), outside =>
    exact ⟨hostRead_of_outside width s (Nat.not_lt.mp outside), off, width, 0, Nat.not_lt.mp outside, .inl rfl⟩
  | .access (.write off width v), outside =>
    exact ⟨hostWrite_of_outside width v s (Nat.not_lt.mp outside), off, width, v, Nat.not_lt.mp outside, .inr rfl⟩
  | .poll, outside => exact absurd trivial outside
  | .assertReset, outside => exact absurd trivial outside
  | .deassertReset, outside => exact absurd trivial outside

theorem step_of_inWindow {s : State} (inWindow : s.InWindow) : ∃ t, step s = .next t ∧ t.inputs ⊆ s.inputs := by
  rcases step_cases s with ⟨-, -, engine⟩ | ⟨-, -, same⟩ | ⟨-, i, rest, hi, input⟩
  · exact ⟨_, engine, List.Subset.refl _⟩
  · exact ⟨_, same, List.Subset.refl _⟩
  · obtain ⟨t, taken, waiting⟩ := inputStep_of_inWindow (inWindow i (by simp [hi])) (takeInput rest s)
    refine ⟨t, input.trans taken, ?_⟩
    rw [hi]
    rcases waiting with behind | ⟨-, again⟩
    · rw [behind]
      exact List.subset_cons_self i rest
    · rw [again]
      exact List.Subset.refl _

/-- A step that answers no next state was given a transaction outside the window. -/
theorem step_next_or_outside (s : State) :
    (∃ t, step s = .next t) ∨ (step s = .fault .outsideWindow ∧ ∃ off width v rest, windowSize ≤ off ∧
      (s.inputs = .access (.read off width) :: rest ∨ s.inputs = .access (.write off width v) :: rest)) := by
  rcases step_cases s with ⟨-, -, engine⟩ | ⟨-, -, same⟩ | ⟨-, i, rest, hi, input⟩
  · exact .inl ⟨_, engine⟩
  · exact .inl ⟨_, same⟩
  · by_cases inWindow : i.InWindow
    · obtain ⟨t, taken, -⟩ := inputStep_of_inWindow inWindow (takeInput rest s)
      exact .inl ⟨t, input.trans taken⟩
    · obtain ⟨stopped, off, width, v, outside, access⟩ := inputStep_of_outside inWindow (takeInput rest s)
      refine .inr ⟨input.trans stopped, off, width, v, rest, outside, ?_⟩
      exact access.imp (fun read => by rw [hi, read]) (fun write => by rw [hi, write])

/-- Settles O42: an input in the window is answered, and any other is the transaction that stops the model. -/
theorem neverLocksUp : Obligations.NeverLocksUp := by
  unfold Obligations.NeverLocksUp
  refine ⟨?answers, ?faults, ?refuses⟩
  case answers =>
    intro s inWindow
    obtain ⟨t, h, waiting⟩ := step_of_inWindow inWindow
    exact ⟨t, h, fun i hi => inWindow i (waiting hi)⟩
  case faults =>
    intro s r faulted
    rcases step_next_or_outside s with ⟨t, h⟩ | ⟨-, outside⟩
    · cases h.symm.trans faulted
    · exact outside
  case refuses =>
    intro s r refused
    rcases step_next_or_outside s with ⟨t, h⟩ | ⟨stopped, -⟩
    · cases h.symm.trans refused
    · cases stopped.symm.trans refused

/-! ### Who writes what (R9, R15 to R20) -/

theorem word_of_decode_init {w : Word} (decoded : decode w = .ok .init) : w = 0x00000001#32 :=
  (eq_encode_of_decode_ok decoded).2.symm

theorem word_of_decode_finalize {w : Word} (decoded : decode w = .ok .finalize) : w = 0x00000003#32 :=
  (eq_encode_of_decode_ok decoded).2.symm

/-- Settles O56: of the cases of `StepEffect` only an edge of reset, an accepted INIT and an accepted FINALIZE write
PHASE. -/
theorem phaseMachine : Obligations.PhaseMachine := by
  unfold Obligations.PhaseMachine
  intro s t h changed
  cases step_effect s t h with
  | unchanged same =>
    obtain ⟨-, phase, -⟩ := same
    exact absurd phase changed
  | engine _ counted =>
    obtain ⟨-, phase, -⟩ := counted
    exact absurd phase changed
  | reset edge =>
    obtain ⟨_, rest, edge, -, -, phase, -⟩ := edge
    exact .inl ⟨phase, rest, edge.imp And.left And.left⟩
  | stage _ _ same =>
    obtain ⟨-, phase, -⟩ := same
    exact absurd phase changed
  | dropped _ _ _ same =>
    obtain ⟨-, phase, -⟩ := same
    exact absurd phase changed
  | accepted _ hb w hi _ command =>
    obtain ⟨rest, hi⟩ := hi
    rcases command with ⟨-, -, phase, -⟩ | ⟨decoded, -, -, -, -, phase⟩ |
      ⟨bitlen, -, -, ready, -, -, -, -, -, phase⟩ | ⟨decoded, ready, -, -, -, -, phase⟩
    · exact absurd phase changed
    · rw [word_of_decode_init decoded] at hi
      exact .inr (.inl ⟨phase, hb, rest, hi⟩)
    · exact absurd (phase.trans ready.symm) changed
    · rw [word_of_decode_finalize decoded] at hi
      exact .inr (.inr ⟨phase, ready, hb, rest, hi⟩)

/-- What a step does to OVR: nothing, or one of its three writers (R19, R72, R74, R98). -/
theorem step_ovr {s t : State} (h : step s = .next t) :
    t.ovr = s.ovr ∨
    ((s.busy = true ∧ s.inReset = false ∧ ∃ w rest, s.inputs = .access (.write 0x000 4 w) :: rest) ∧ t.ovr = true) ∨
    ((∃ rest, s.inputs = .assertReset :: rest ∨ s.inputs = .deassertReset :: rest) ∧ t.ovr = false) ∨
    ((s.busy = false ∧ ∃ rest, s.inputs = .access (.write 0x000 4 0x00000001#32) :: rest) ∧ t.ovr = false) := by
  cases step_effect s t h with
  | unchanged same =>
    obtain ⟨-, -, -, -, -, ovr, -⟩ := same
    exact .inl ovr
  | engine _ counted =>
    obtain ⟨-, -, -, -, -, ovr, -⟩ := counted
    exact .inl ovr
  | reset edge =>
    obtain ⟨_, rest, edge, -, -, -, -, -, -, ovr, -⟩ := edge
    exact .inr (.inr (.inl ⟨⟨rest, edge.imp And.left And.left⟩, ovr⟩))
  | stage _ _ same =>
    obtain ⟨-, -, -, -, ovr, -⟩ := same
    exact .inl ovr
  | dropped hr hb hi same =>
    obtain ⟨-, -, -, -, -, ovr, -⟩ := same
    exact .inr (.inl ⟨⟨hb, hr, hi⟩, ovr⟩)
  | accepted _ hb w hi _ command =>
    rcases command with ⟨-, -, -, -, ovr⟩ | ⟨decoded, -, ovr, -⟩ | ⟨bitlen, -, -, -, -, -, ovr, -⟩ | ⟨-, -, -, ovr, -⟩
    · exact .inl ovr
    · rw [word_of_decode_init decoded] at hi
      exact .inr (.inr (.inr ⟨⟨hb, hi⟩, ovr⟩))
    · exact .inl ovr
    · exact .inl ovr

/-- Settles O55: `step_ovr` for the two directions, and the step of each of the three writers. -/
theorem overrunFlag : Obligations.OverrunFlag := by
  unfold Obligations.OverrunFlag
  intro s t h
  refine ⟨?set, ?cleared, ?drop, ?edge, ?init⟩
  case set =>
    intro before after
    rcases step_ovr h with same | ⟨dropped, -⟩ | ⟨-, zero⟩ | ⟨-, zero⟩
    · simp [same, before] at after
    · exact dropped
    · simp [zero] at after
    · simp [zero] at after
  case cleared =>
    intro before after
    rcases step_ovr h with same | ⟨-, one⟩ | ⟨edge, -⟩ | ⟨init, -⟩
    · simp [same, before] at after
    · simp [one] at after
    · exact .inl edge
    · exact .inr init
  case drop =>
    intro w rest hi hb hr turns
    obtain ⟨dropped, -⟩ := commandWhileBusyDropped s w rest hi hb turns hr
    cases h.symm.trans dropped
    exact ⟨rfl, rfl⟩
  case edge =>
    intro rest edge host
    rcases edge with hi | hi
    all_goals
      cases h.symm.trans (step_input s _ rest hi host)
      rfl
  case init =>
    intro rest hi hb hr
    have issued := issueCommand_of_decode_ok (s := takeInput rest s) hb (decode_encode (i := .init) trivial) rfl
    cases h.symm.trans (step_cmdWrite hi (engineTurn_idle s hb) hr issued)
    rfl

/-! ### A host step while a command is in flight (R72, R101) -/

/-- The command in flight is untouched: its results stand, and it has as many engine steps left. -/
def InFlightFrame (s t : State) : Prop :=
  t.hash = s.hash ∧ t.phase = s.phase ∧ t.digest = s.digest ∧ t.result = s.result ∧ t.busy = s.busy ∧
    t.latLeft = s.latLeft ∧ t.hostTurns = s.hostTurns

theorem memWrite_of_busy {off : Nat} {v : Word} {s t : State} (hb : s.busy = true)
    (written : memWrite off v s = .next t) : InFlightFrame s t := by
  rcases memWrite_cases off v s with ⟨-, e⟩ | ⟨-, -, e⟩ | ⟨-, -, -, e⟩ | ⟨-, -, -, e⟩
  case inr.inl =>
    cases (e.symm.trans written).symm.trans (issueCommand_of_busy v hb)
    exact ⟨rfl, rfl, rfl, rfl, rfl, rfl, rfl⟩
  all_goals
    cases written.symm.trans e
    exact ⟨rfl, rfl, rfl, rfl, rfl, rfl, rfl⟩

/-- An input that reaches the core while a command is in flight is an edge of reset, or leaves the command alone. -/
theorem inputStep_of_busy {i : Input} {s t : State} (hb : s.busy = true) (h : inputStep i s = .next t) :
    ((i = .assertReset ∨ i = .deassertReset) ∧ t.busy = false) ∨ InFlightFrame s t := by
  match i, h with
  | .access (.read off width), h =>
    right
    rcases hostRead_cases off width s with ⟨-, e⟩ | ⟨-, -, e⟩ | ⟨-, -, -, e⟩
    all_goals cases Eq.trans (Eq.symm h) e
    all_goals exact ⟨rfl, rfl, rfl, rfl, rfl, rfl, rfl⟩
  | .access (.write off width v), h =>
    right
    rcases hostWrite_cases off width v s with ⟨-, e⟩ | ⟨-, -, e⟩ | ⟨-, -, -, u, written, e⟩
    all_goals cases Eq.trans (Eq.symm h) e
    · exact ⟨rfl, rfl, rfl, rfl, rfl, rfl, rfl⟩
    · exact memWrite_of_busy (t := u) hb written
  | .poll, h =>
    right
    cases inFlight : (memRead 0x004 s).getLsbD 0 with
    | true =>
      cases Eq.trans (Eq.symm h) (pollStep_again inFlight)
      exact ⟨rfl, rfl, rfl, rfl, rfl, rfl, rfl⟩
    | false =>
      cases Eq.trans (Eq.symm h) (pollStep_done inFlight)
      exact ⟨rfl, rfl, rfl, rfl, rfl, rfl, rfl⟩
  | .assertReset, h =>
    cases h
    exact .inl ⟨.inl rfl, rfl⟩
  | .deassertReset, h =>
    cases h
    exact .inl ⟨.inr rfl, rfl⟩

/-- Only the engine, or an edge of reset, ends a command in flight (R20). -/
theorem busy_of_host_step {s t : State} (host : engineTurn s = false) (hb : s.busy = true) (h : step s = .next t)
    (noEdge : ¬ ∃ rest, s.inputs = .assertReset :: rest ∨ s.inputs = .deassertReset :: rest) : t.busy = true := by
  rcases step_cases s with ⟨-, turn, -⟩ | ⟨free, -⟩ | ⟨-, i, rest, hi, input⟩
  · simp [(engineTurn_iff s).mpr ⟨hb, turn⟩] at host
  · simp [hb] at free
  · rcases inputStep_of_busy (s := takeInput rest s) hb (input.symm.trans h) with ⟨edge, -⟩ | ⟨-, -, -, -, busy, -⟩
    · exact absurd ⟨rest, edge.imp (fun e => by rw [hi, e]) (fun e => by rw [hi, e])⟩ noEdge
    · exact busy.trans hb

/-- A free core becomes busy exactly by an accepted CMD write (R20, R70). -/
theorem busy_iff_of_free_step {s t : State} (hb : s.busy = false) (h : step s = .next t) :
    t.busy = true ↔ s.inReset = false ∧ ∃ w rest, s.inputs = .access (.write 0x000 4 w) :: rest := by
  constructor
  · intro busy
    cases step_effect s t h with
    | unchanged same =>
      obtain ⟨-, -, -, -, -, -, sameBusy, -⟩ := same
      simp [sameBusy, hb] at busy
    | engine inFlight _ => simp [hb] at inFlight
    | reset edge =>
      obtain ⟨-, -, -, -, -, -, -, -, -, -, free, -⟩ := edge
      simp [free] at busy
    | stage _ _ same =>
      obtain ⟨-, -, -, -, -, sameBusy, -⟩ := same
      simp [sameBusy, hb] at busy
    | dropped _ inFlight _ _ => simp [hb] at inFlight
    | accepted hr _ w hi _ _ => exact ⟨hr, w, hi⟩
  · rintro ⟨hr, w, rest, hi⟩
    rcases issueCommand_cases w (takeInput rest s) with ⟨busy, -⟩ | ⟨-, -, issued⟩ | ⟨-, i, u, -, -, issued⟩
    · exact absurd (hb.symm.trans busy) Bool.noConfusion
    all_goals
      cases h.symm.trans (step_cmdWrite hi (engineTurn_idle s hb) hr issued)
      rfl

/-- Apart from an edge of reset, which input writes each piece of the core's state but BUSY (R9, R15 to R19). -/
theorem step_writers {s t : State} (h : step s = .next t)
    (noEdge : ¬ ∃ rest, s.inputs = .assertReset :: rest ∨ s.inputs = .deassertReset :: rest) :
    (t.hash ≠ s.hash → s.busy = false ∧ ∃ w rest, legal w = true ∧ s.inputs = .access (.write 0x000 4 w) :: rest) ∧
    (t.digest ≠ s.digest → s.busy = false ∧
      ∃ w rest, (w = 0x00000001#32 ∨ w = 0x00000003#32) ∧ s.inputs = .access (.write 0x000 4 w) :: rest) ∧
    (t.phase ≠ s.phase → s.busy = false ∧
      ∃ w rest, (w = 0x00000001#32 ∨ w = 0x00000003#32) ∧ s.inputs = .access (.write 0x000 4 w) :: rest) ∧
    (t.result ≠ s.result → s.busy = false ∧ ∃ w rest, s.inputs = .access (.write 0x000 4 w) :: rest) ∧
    (t.stage ≠ s.stage → ∃ off v rest, 0x100 ≤ off ∧ off < 0x140 ∧ s.inputs = .access (.write off 4 v) :: rest) ∧
    (t.ovr ≠ s.ovr → ∃ w rest, s.inputs = .access (.write 0x000 4 w) :: rest) ∧
    t.inReset = s.inReset := by
  cases step_effect s t h with
  | unchanged same =>
    obtain ⟨hash, phase, digest, stage, result, ovr, -, inReset, -⟩ := same
    exact ⟨absurd hash, absurd digest, absurd phase, absurd result, absurd stage, absurd ovr, inReset⟩
  | engine _ counted =>
    obtain ⟨hash, phase, digest, stage, result, ovr, -, inReset, -⟩ := counted
    exact ⟨absurd hash, absurd digest, absurd phase, absurd result, absurd stage, absurd ovr, inReset⟩
  | reset edge =>
    obtain ⟨_, rest, edge, -⟩ := edge
    exact absurd ⟨rest, edge.imp And.left And.left⟩ noEdge
  | stage _ hi same =>
    obtain ⟨hash, phase, digest, result, ovr, -, inReset, -⟩ := same
    obtain ⟨off, v, rest, hi, low, high, -⟩ := hi
    exact ⟨absurd hash, absurd digest, absurd phase, absurd result, fun _ => ⟨off, v, rest, low, high, hi⟩,
      absurd ovr, inReset⟩
  | dropped _ _ hi same =>
    obtain ⟨hash, phase, digest, stage, result, -, -, inReset, -⟩ := same
    exact ⟨absurd hash, absurd digest, absurd phase, absurd result, absurd stage, fun _ => hi, inReset⟩
  | accepted hr hb w hi started command =>
    obtain ⟨-, -, inReset, stage⟩ := started
    obtain ⟨rest, hi⟩ := hi
    have byLegal : ∀ {i}, decode w = .ok i → s.busy = false ∧
        ∃ w rest, legal w = true ∧ s.inputs = .access (.write 0x000 4 w) :: rest :=
      fun decoded => ⟨hb, w, rest, legal_of_decode_ok decoded, hi⟩
    have byWord : w = 0x00000001#32 ∨ w = 0x00000003#32 → s.busy = false ∧
        ∃ w rest, (w = 0x00000001#32 ∨ w = 0x00000003#32) ∧ s.inputs = .access (.write 0x000 4 w) :: rest :=
      fun word => ⟨hb, w, rest, word, hi⟩
    suffices message :
        (t.hash ≠ s.hash → ∃ i, decode w = .ok i) ∧
        (t.digest ≠ s.digest → w = 0x00000001#32 ∨ w = 0x00000003#32) ∧
        (t.phase ≠ s.phase → w = 0x00000001#32 ∨ w = 0x00000003#32) by
      obtain ⟨hash, digest, phase⟩ := message
      exact ⟨fun changed => (hash changed).elim fun _ decoded => byLegal decoded,
        fun changed => byWord (digest changed), fun changed => byWord (phase changed), fun _ => ⟨hb, w, rest, hi⟩, absurd stage, fun _ => ⟨w, rest, hi⟩,
        inReset.trans hr.symm⟩
    rcases command with ⟨-, hash, phase, digest, -⟩ | ⟨decoded, -⟩ |
      ⟨bitlen, decoded, -, ready, -, -, -, -, digest, phase⟩ | ⟨decoded, -⟩
    · exact ⟨absurd hash, absurd digest, absurd phase⟩
    · have word := word_of_decode_init decoded
      exact ⟨fun _ => ⟨_, decoded⟩, fun _ => .inl word, fun _ => .inl word⟩
    · exact ⟨fun _ => ⟨_, decoded⟩, absurd digest, absurd (phase.trans ready.symm)⟩
    · have word := word_of_decode_finalize decoded
      exact ⟨fun _ => ⟨_, decoded⟩, fun _ => .inr word, fun _ => .inr word⟩

/-- Settles O57: the engine's step is `engineStep`; for a host's step the cases of `StepEffect` name each writer. -/
theorem whoWritesWhat : Obligations.WhoWritesWhat := by
  unfold Obligations.WhoWritesWhat
  intro s t h
  by_cases edge : engineTurn s = false ∧
      ∃ rest, s.inputs = .assertReset :: rest ∨ s.inputs = .deassertReset :: rest
  · exact .inl edge
  right
  cases host : engineTurn s with
  | true =>
    cases h.symm.trans (step_engine host)
    obtain ⟨hb, -⟩ := (engineTurn_iff s).mp host
    refine ⟨absurd rfl, absurd rfl, absurd rfl, absurd rfl, absurd rfl, absurd rfl, ?_, ?_, rfl⟩
    · intro free
      exact absurd (hb.symm.trans free) Bool.noConfusion
    · intro _ done
      have last : s.latLeft ≤ 1 := Nat.not_lt.mp (of_decide_eq_false done)
      refine ⟨rfl, last, ?_⟩
      rw [engineStep, decide_eq_false (Nat.not_lt.mpr last), Nat.sub_eq_zero_of_le last]
  | false =>
    replace edge := fun e => edge ⟨host, e⟩
    have inFlight : s.busy = true → t.busy = false → False := fun hb done =>
      absurd ((busy_of_host_step host hb h edge).symm.trans done) Bool.noConfusion
    have busy := fun hb => busy_iff_of_free_step (s := s) (t := t) hb h
    obtain ⟨hash, digest, phase, result, stage, ovr, inReset⟩ := step_writers h edge
    exact ⟨hash, digest, phase, result, stage, ovr, busy, fun hb done => (inFlight hb done).elim, inReset⟩

end Sys2Proof.Machine
end

section
/-! What the host reads and writes in the register window (R26 to R33, R91, R98, R101): the word of each register, its
byte lanes, and the step of each access. -/

namespace Sys2Proof.Machine

/-! ### Which register an offset names (R27) -/

theorem registerAt_stageWord {w : Nat} (hw : w < 16) : registerAt (0x100 + 4 * w) = .stage w :=
  (registerAt_stage _ w).mpr ⟨by omega, by omega, by omega⟩

theorem registerAt_digestWord {w : Nat} (hw : w < 8) : registerAt (0x180 + 4 * w) = .digest w := by
  have word : (0x180 + 4 * w - 0x180) / 4 = w := by omega
  unfold registerAt
  rw [if_neg (by omega), if_neg (by omega), if_neg (by omega), if_neg (by omega), if_neg (by omega), if_pos (by omega),
    word]

theorem registerAt_reserved {off : Nat} (aligned : off % 4 = 0)
    (reserved : (0x010 ≤ off ∧ off < 0x100) ∨ (0x140 ≤ off ∧ off < 0x180) ∨ (0x1A0 ≤ off ∧ off < 0x200)) :
    registerAt off = .reserved := by
  unfold registerAt
  rw [if_neg (by omega), if_neg (by omega), if_neg (by omega), if_neg (by omega), if_neg (by omega), if_neg (by omega)]

/-! ### What a read returns (R31, R98, R101) -/

theorem memRead_of_inReset (off : Nat) {s : State} (hr : s.inReset = true) : memRead off s = Config.draw s.draws := by
  rw [memRead, if_pos hr]

theorem memRead_of_busy (off : Nat) {s : State} (hr : s.inReset = false) (hb : s.busy = true) :
    memRead off s = readBusy (registerAt off) (Config.draw s.draws) s := by
  simp [memRead, hr, hb]

theorem memRead_of_free (off : Nat) {s : State} (hr : s.inReset = false) (hb : s.busy = false) :
    memRead off s = readIdle (registerAt off) s := by
  simp [memRead, hr, hb]

/-- STAGE reads its bytes, a command in flight or not (R31, R101). -/
theorem memRead_stageWord {s : State} (hr : s.inReset = false) {w : Nat} (hw : w < 16) :
    memRead (0x100 + 4 * w) s = busWord s.stage w := by
  cases hb : s.busy with
  | true =>
    rw [memRead_of_busy _ hr hb, registerAt_stageWord hw]
    rfl
  | false =>
    rw [memRead_of_free _ hr hb, registerAt_stageWord hw]
    rfl

/-! ### Byte lanes (R29) -/

theorem lane_busWord {n : Nat} (bytes : Bytes n) (w : Nat) {k : Nat} (hk : k < 4) :
    (busWord bytes w).extractLsb' (8 * k) 8 = byteAt bytes (4 * w + k) := by
  change lane (busWord bytes w) k = _
  obtain ⟨lane0, lane1, lane2, lane3⟩ := lane_laneWord (byteAt bytes (4 * w)) (byteAt bytes (4 * w + 1))
    (byteAt bytes (4 * w + 2)) (byteAt bytes (4 * w + 3))
  unfold busWord
  interval_cases k
  · exact lane0
  · exact lane1
  · exact lane2
  · exact lane3

theorem word_eq_of_lanes {v v' : Word} (lanes : ∀ k, k < 4 → lane v k = lane v' k) : v = v' := by
  apply BitVec.eq_of_getLsbD_eq
  intro i hi
  have bit := congrArg (fun byte : Byte => byte.getLsbD (i % 8)) (lanes (i / 8) (by omega))
  have index : 8 * (i / 8) + i % 8 = i := Nat.div_add_mod i 8
  have inByte : i % 8 < 8 := Nat.mod_lt _ (by decide)
  simpa [lane, BitVec.getLsbD_extractLsb', index, inByte] using bit

/-- Settles O44: each word is the `busWord` of its bytes, and the two halves of BLKCNT make it whole. -/
theorem readLanes : Obligations.ReadLanes := by
  unfold Obligations.ReadLanes
  intro s hr hb
  refine ⟨?stage, ?digest, ?blkcnt⟩
  case stage =>
    intro w k hw hk
    rw [memRead_stageWord hr hw, lane_busWord _ _ hk]
  case digest =>
    intro w k hw hk
    rw [memRead_of_free _ hr hb, registerAt_digestWord hw]
    exact lane_busWord _ _ hk
  case blkcnt =>
    rw [memRead_of_free _ hr hb, memRead_of_free _ hr hb]
    change s.hash.blkcnt.extractLsb' 32 32 ++ s.hash.blkcnt.extractLsb' 0 32 = s.hash.blkcnt
    rw [BitVec.extractLsb'_append_extractLsb'_eq_extractLsb' (by decide : 32 = 0 + 32)]
    exact BitVec.extractLsb'_eq_self

/-! ### STATUS (R30) -/

/-- The bits of STATUS, field by field. -/
theorem getLsbD_statusWord (s : State) {j : Nat} (hj : j < 32) :
    (statusWord s).getLsbD j =
      ((decide (16 ≤ j) && s.hash.pend.getLsbD (j - 16)) || (decide (8 ≤ j) && s.hash.buflen.getLsbD (j - 8)) ||
      (decide (4 ≤ j) && (resultCode s.result).getLsbD (j - 4)) ||
      (decide (3 ≤ j) && (BitVec.ofBool s.ovr).getLsbD (j - 3)) ||
      (decide (1 ≤ j) && (phaseCode s.phase).getLsbD (j - 1)) || (BitVec.ofBool s.busy).getLsbD j) := by
  have inWord : ∀ n, j - n < 32 := fun n => by omega
  simp only [statusWord, BitVec.getLsbD_or, BitVec.getLsbD_shiftLeft, BitVec.getLsbD_setWidth, hj, inWord, decide_true,
    Bool.true_and, ← decide_not, Nat.not_lt]

theorem extractLsb'_eq_of_bits {w : Word} {start len : Nat} {field : BitVec len}
    (bits : ∀ i, i < len → w.getLsbD (start + i) = field.getLsbD i) : w.extractLsb' start len = field := by
  apply BitVec.eq_of_getLsbD_eq
  intro i hi
  rw [BitVec.getLsbD_extractLsb', bits i hi]
  simp [hi]

theorem statusWord_fields (s : State) :
    (statusWord s).extractLsb' 1 2 = phaseCode s.phase ∧ (statusWord s).extractLsb' 4 4 = resultCode s.result ∧
    (statusWord s).extractLsb' 8 7 = s.hash.buflen ∧ (statusWord s).extractLsb' 16 3 = s.hash.pend ∧
    (statusWord s).extractLsb' 19 13 = 0 := by
  refine ⟨?phase, ?result, ?buflen, ?pend, ?reserved⟩
  all_goals
    apply extractLsb'_eq_of_bits
    intro i hi
    rw [getLsbD_statusWord s (by omega)]
    interval_cases i <;> simp

theorem statusWord_bits (s : State) :
    (statusWord s).getLsbD 0 = s.busy ∧ (statusWord s).getLsbD 3 = s.ovr ∧ (statusWord s).getLsbD 15 = false := by
  refine ⟨?_, ?_, ?_⟩
  all_goals
    rw [getLsbD_statusWord s (by decide)]
    simp

theorem memRead_status_of_free {s : State} (hr : s.inReset = false) (hb : s.busy = false) :
    memRead 0x004 s = statusWord s := memRead_of_free _ hr hb

theorem memRead_status_of_busy {s : State} (hr : s.inReset = false) (hb : s.busy = true) :
    memRead 0x004 s = statusBusy (Config.draw s.draws) := memRead_of_busy _ hr hb

theorem statusBusy_bit0 (draw : Word) : (statusBusy draw).getLsbD 0 = true := by
  simp [statusBusy]

theorem phaseCode_eq (p : Phase) :
    phaseCode p = if p = .idle then 0#2 else if p = .ready then 1#2 else 2#2 := by
  cases p <;> rfl

theorem resultCode_eq (r : ResultCode) :
    resultCode r = if r = .ok then 0#4 else if r = .errSeq then 1#4 else if r = .errNotReady then 2#4 else 3#4 := by
  cases r <;> rfl

/-- Settles O43: STATUS field by field. -/
theorem statusFields : Obligations.StatusFields := by
  unfold Obligations.StatusFields
  refine ⟨?free, ?busy, ?reset, ?write⟩
  case free =>
    intro s hr hb
    rw [memRead_status_of_free hr hb]
    obtain ⟨busy, ovr, reserved15⟩ := statusWord_bits s
    obtain ⟨phase, result, buflen, pend, reserved⟩ := statusWord_fields s
    exact ⟨busy.trans hb, phase.trans (phaseCode_eq _), ovr, result.trans (resultCode_eq _), buflen, reserved15, pend,
      reserved⟩
  case busy =>
    intro s hr hb
    rw [memRead_status_of_busy hr hb]
    exact statusBusy_bit0 _
  case reset => decide
  case write =>
    intro s v
    exact memWrite_ignored v s (by decide) (.inl (by decide))

/-! ### STAGE writes (R32, R33) -/

theorem byteAt_setBusWord {n : Nat} (bytes : Bytes n) (w : Nat) (v : Word) {k : Nat} (hk : k < n) :
    byteAt (setBusWord bytes w v) k = if k / 4 = w then lane v (k % 4) else bytes[k] := by
  rw [byteAt_of_lt _ _ hk, getElem_setBusWord]

theorem busWord_setBusWord_same (bytes : Bytes 64) {w : Nat} (v : Word) (hw : w < 16) :
    busWord (setBusWord bytes w v) w = v := by
  apply word_eq_of_lanes
  intro k hk
  have word : (4 * w + k) / 4 = w := by omega
  have index : (4 * w + k) % 4 = k := by omega
  rw [lane, lane_busWord _ _ hk, byteAt_setBusWord _ _ _ (by omega), if_pos word, index]

theorem busWord_setBusWord_other (bytes : Bytes 64) {w w' : Nat} (v : Word) (hw' : w' < 16) (other : w' ≠ w) :
    busWord (setBusWord bytes w v) w' = busWord bytes w' := by
  apply word_eq_of_lanes
  intro k hk
  have word : (4 * w' + k) / 4 ≠ w := by omega
  rw [lane, lane, lane_busWord _ _ hk, lane_busWord _ _ hk, byteAt_setBusWord _ _ _ (by omega), if_neg word,
    byteAt_of_lt _ _ (by omega)]

theorem setBusWord_twice {n : Nat} (bytes : Bytes n) (w : Nat) (v : Word) :
    setBusWord (setBusWord bytes w v) w v = setBusWord bytes w v := by
  apply Vector.ext
  intro k hk
  simp only [getElem_setBusWord]
  split_ifs
  · rfl
  · rfl

theorem memWrite_stageWord {s : State} (hr : s.inReset = false) {w : Nat} (hw : w < 16) (v : Word) :
    memWrite (0x100 + 4 * w) v s = .next { s with stage := setBusWord s.stage w v } := by
  have word : (0x100 + 4 * w - 0x100) / 4 = w := by omega
  rw [memWrite_stage v hr (by omega) (by omega), word]

/-- Settles O45: the write is `setBusWord`, and the reads are `busWord`. -/
theorem stageWriteThenRead : Obligations.StageWriteThenRead := by
  unfold Obligations.StageWriteThenRead
  intro s w v hr hw
  refine ⟨_, memWrite_stageWord hr hw v, rfl, ?readBack, ?lanes, ?others, ?twice⟩
  case readBack =>
    rw [memRead_stageWord (by exact hr) hw]
    exact busWord_setBusWord_same s.stage v hw
  case lanes =>
    intro k hk
    rw [← lane_busWord _ _ hk]
    dsimp only
    rw [busWord_setBusWord_same s.stage v hw]
  case others =>
    intro w' hw' other
    rw [memRead_stageWord (by exact hr) hw', memRead_stageWord hr hw']
    exact busWord_setBusWord_other s.stage v hw' other
  case twice =>
    rw [memWrite_stageWord (by exact hr) hw]
    dsimp only
    rw [setBusWord_twice]

/-! ### The other registers (R27, R101) -/

/-- Settles O46: an ignored write, and the registers that read 0 in both tables. -/
theorem reservedAndReadOnly : Obligations.ReservedAndReadOnly := by
  unfold Obligations.ReservedAndReadOnly
  refine ⟨?writes, ?reads⟩
  case writes =>
    intro s off v _ notCmd notStage
    exact memWrite_ignored v s notCmd notStage
  case reads =>
    intro s off hr aligned reserved
    have register : registerAt off = .cmd ∨ registerAt off = .reserved :=
      reserved.imp (registerAt_cmd off).mpr (registerAt_reserved aligned)
    have zero : readIdle (registerAt off) s = 0 ∧ readBusy (registerAt off) (Config.draw s.draws) s = 0 := by
      rcases register with cmd | hole
      · rw [cmd]
        exact ⟨rfl, rfl⟩
      · rw [hole]
        exact ⟨rfl, rfl⟩
    cases hb : s.busy with
    | true => exact (memRead_of_busy _ hr hb).trans zero.2
    | false => exact (memRead_of_free _ hr hb).trans zero.1

/-! ### The step of a host access (R28, R91, R98) -/

theorem step_read {s : State} {off : Nat} {rest : List Input} (hi : s.inputs = .access (.read off 4) :: rest)
    (host : engineTurn s = false) (inside : off < 0x200) (aligned : off % 4 = 0) :
    step s = .next (reply (.data (memRead off s)) (drawn (takeInput rest s))) := by
  have same : memRead off (takeInput rest s) = memRead off s := by
    unfold memRead
    cases registerAt off <;> rfl
  rw [step_input s _ rest hi host, ← same]
  exact hostRead_of_aligned (takeInput rest s) inside aligned

theorem step_write {s t : State} {off : Nat} {v : Word} {rest : List Input}
    (hi : s.inputs = .access (.write off 4 v) :: rest) (host : engineTurn s = false) (inside : off < 0x200)
    (aligned : off % 4 = 0) (written : memWrite off v (takeInput rest s) = .next t) :
    step s = .next (reply .done t) := by
  rw [step_input s _ rest hi host]
  exact hostWrite_of_aligned inside aligned written

theorem step_of_misaligned {s : State} {off width : Nat} {v : Word} {rest : List Input} {a : Access}
    (hi : s.inputs = .access a :: rest) (access : a = .read off width ∨ a = .write off width v)
    (host : engineTurn s = false) (inside : off < 0x200) (misaligned : width ≠ 4 ∨ off % 4 ≠ 0) :
    step s = .next (reply .busError (takeInput rest s)) := by
  rw [step_input s _ rest hi host]
  rcases access with rfl | rfl
  · exact hostRead_of_misaligned _ inside misaligned
  · exact hostWrite_of_misaligned v _ inside misaligned

/-- Settles O49: the one reply is the bus error. -/
theorem busErrors : Obligations.BusErrors := by
  unfold Obligations.BusErrors
  intro s off width v rest a hi access host inside misaligned
  exact step_of_misaligned hi access host inside misaligned

/-- Settles O48: the step of an aligned read, and that of any other. -/
theorem readsChangeNothing : Obligations.ReadsChangeNothing := by
  unfold Obligations.ReadsChangeNothing
  intro s off width rest hi host inside
  by_cases form : width = 4 ∧ off % 4 = 0
  · obtain ⟨rfl, aligned⟩ := form
    refine ⟨_, step_read hi host inside aligned, rfl, ?_⟩
    rw [if_pos ⟨rfl, aligned⟩]
    rfl
  · refine ⟨_, step_of_misaligned (v := 0) hi (.inl rfl) host inside (by omega), rfl, ?_⟩
    rw [if_neg form]
    rfl

/-- Settles O47: the table of reads while busy, and the step of a read. -/
theorem readsWhileBusy : Obligations.ReadsWhileBusy := by
  unfold Obligations.ReadsWhileBusy
  intro s hr hb
  refine ⟨memRead_status_of_busy hr hb, memRead_of_busy _ hr hb, memRead_of_busy _ hr hb, ?digest, ?stage,
    memRead_of_busy _ hr hb, ?step⟩
  case digest =>
    intro w hw
    rw [memRead_of_busy _ hr hb, registerAt_digestWord hw]
    rfl
  case stage =>
    intro w k hw hk
    rw [memRead_stageWord hr hw, lane_busWord _ _ hk]
  case step =>
    intro off rest inside aligned hi turns
    exact ⟨_, step_read hi (engineTurn_host s turns _ rest hi) inside aligned, rfl, rfl⟩

/-- Settles O51: the aligned read draws, and the aligned write is ignored. -/
theorem accessDuringReset : Obligations.AccessDuringReset := by
  unfold Obligations.AccessDuringReset
  intro s off v rest hr host inside aligned
  refine ⟨fun hi => ?_, fun hi => ?_⟩
  · rw [step_read hi host inside aligned, memRead_of_inReset off hr]
    rfl
  · exact step_write hi host inside aligned (memWrite_of_inReset off v hr)

/-- Settles O52: the step of a STAGE write, whose lanes are the four bytes from its offset. -/
theorem stageWriteAfterAcceptance : Obligations.StageWriteAfterAcceptance := by
  unfold Obligations.StageWriteAfterAcceptance
  intro s off v rest hi hr host low high aligned
  refine ⟨_, step_write hi host (by omega) aligned (memWrite_stage v (s := takeInput rest s) hr low high), rfl, ?_⟩
  intro k
  simp only [reply_stage, takeInput_stage, Fin.getElem_fin, getElem_setBusWord]
  by_cases addressed : off ≤ 0x100 + k.val ∧ 0x100 + k.val < off + 4
  · have index : k.val % 4 = 0x100 + k.val - off := by omega
    rw [if_pos addressed, if_pos (by omega), lane, index]
  · rw [if_neg addressed, if_neg (by omega)]

/-- Settles O50: either edge is `resetCore`. -/
theorem resetEvent : Obligations.ResetEvent := by
  unfold Obligations.ResetEvent
  intro s rest edge hi isEdge host
  rcases isEdge with rfl | rfl
  · exact ⟨_, step_input s _ rest hi host, rfl, rfl, rfl, rfl, rfl, rfl, rfl, rfl, rfl, rfl, rfl, iff_of_true rfl rfl,
      rfl, rfl⟩
  · exact ⟨_, step_input s _ rest hi host, rfl, rfl, rfl, rfl, rfl, rfl, rfl, rfl, rfl, rfl, rfl,
      iff_of_false Bool.noConfusion Input.noConfusion, rfl, rfl⟩

/-! ### The window on the bus (R6, R26) -/

theorem windowOffset_eq_some_iff (addr off : Nat) :
    windowOffset addr = some off ↔ off < 0x200 ∧ addr = busAddress off := by
  unfold windowOffset busAddress windowSize
  constructor
  · intro h
    split_ifs at h with reached
    cases h
    omega
  · rintro ⟨inside, rfl⟩
    rw [if_pos ⟨by omega, by omega⟩, Nat.add_sub_cancel_left]

/-- Settles O54: the base is a multiple of 512 whatever block it is. -/
theorem windowAddresses : Obligations.WindowAddresses := by
  unfold Obligations.WindowAddresses
  refine ⟨Nat.mul_mod_right _ _, ?reaches, ?reached⟩
  case reaches =>
    intro off inside
    exact (windowOffset_eq_some_iff _ _).mpr ⟨inside, rfl⟩
  case reached =>
    intro addr off h
    exact (windowOffset_eq_some_iff addr off).mp h

end Sys2Proof.Machine
end

section
/-! A command in flight completes (R35, R71): each step of the engine takes one of its LAT steps, and each step of the
host one of the host's turns before the next of them. -/

namespace Sys2Proof.Machine

theorem run_succ_of_next (M : Host.Core) {s t : M.State} (h : M.step s = .next t) (k : Nat) :
    M.run (k + 1) s = M.run k t := by
  simp only [Host.Core.run, h]

theorem run_succ {s t : State} (h : step s = .next t) (k : Nat) :
    Host.Core.run core (k + 1) s = Host.Core.run core k t :=
  run_succ_of_next core h k

theorem hostTurns_ne_zero {s : State} (hb : s.busy = true) (host : engineTurn s = false) : s.hostTurns ≠ 0 := by
  intro none
  simp [(engineTurn_iff s).mpr ⟨hb, .inr none⟩] at host

/-- Induction over the steps of a command in flight: its engine steps, and between two of them the host's turns. -/
theorem inFlight_induction {P : State → Prop} (free : ∀ s, s.busy = false → P s)
    (engine : ∀ s, engineTurn s = true → P (engineStep s) → P s)
    (host : ∀ s, s.busy = true → engineTurn s = false →
      (∀ t, t.latLeft = s.latLeft → t.hostTurns = s.hostTurns - 1 → P t) → P s) (s : State) : P s := by
  cases hb : s.busy with
  | false => exact free s hb
  | true =>
    cases turn : engineTurn s with
    | true =>
      refine engine s turn ?_
      by_cases more : 1 < s.latLeft
      · exact inFlight_induction free engine host (engineStep s)
      · exact free _ (decide_eq_false more)
    | false =>
      have turns := hostTurns_ne_zero hb turn
      exact host s hb turn fun t left fewer => inFlight_induction free engine host t
termination_by (s.latLeft, s.hostTurns)
decreasing_by
  all_goals
    simp only [Prod.lex_def, engineStep_latLeft]
    omega

/-! ### The command completes (R71) -/

/-- The results a command left at acceptance still stand. -/
def SameResults (s t : State) : Prop :=
  t.hash = s.hash ∧ t.phase = s.phase ∧ t.digest = s.digest ∧ t.result = s.result

theorem SameResults.trans {s t u : State} (h : SameResults s t) (h' : SameResults t u) : SameResults s u := by
  obtain ⟨hash, phase, digest, result⟩ := h
  obtain ⟨hash', phase', digest', result'⟩ := h'
  exact ⟨hash'.trans hash, phase'.trans phase, digest'.trans digest, result'.trans result⟩

/-- No edge of reset waits. -/
def NoEdge (s : State) : Prop := ∀ i ∈ s.inputs, i ≠ .assertReset ∧ i ≠ .deassertReset

/-- A host step with a command in flight takes an edge of reset, or leaves the command in flight and takes a turn. -/
theorem host_step_of_busy {s : State} (inWindow : s.InWindow) (hb : s.busy = true) (host : engineTurn s = false) :
    ∃ t, step s = .next t ∧ t.InWindow ∧ t.inputs ⊆ s.inputs ∧
      ((¬ NoEdge s ∧ t.busy = false) ∨
        (SameResults s t ∧ t.latLeft = s.latLeft ∧ t.hostTurns = s.hostTurns - 1)) := by
  obtain ⟨t, h, waiting⟩ := step_of_inWindow inWindow
  refine ⟨t, h, fun i hi => inWindow i (waiting hi), waiting, ?_⟩
  rcases step_cases s with ⟨-, turn, -⟩ | ⟨free, -⟩ | ⟨-, i, rest, hi, input⟩
  · simp [(engineTurn_iff s).mpr ⟨hb, turn⟩] at host
  · simp [hb] at free
  · rcases inputStep_of_busy (s := takeInput rest s) hb (input.symm.trans h) with
      ⟨edge, free⟩ | ⟨hash, phase, digest, result, -, latLeft, turns⟩
    · refine .inl ⟨fun noEdge => ?_, free⟩
      obtain ⟨notAssert, notDeassert⟩ := noEdge i (by simp [hi])
      exact edge.elim notAssert notDeassert
    · exact .inr ⟨⟨hash, phase, digest, result⟩, latLeft, turns⟩

theorem reaches_free (s : State) : s.InWindow →
    ∃ k t, Host.Core.run core k s = .next t ∧ t.busy = false ∧ (NoEdge s → SameResults s t) := by
  induction s using inFlight_induction with
  | free s hb =>
    intro _
    exact ⟨0, s, rfl, hb, fun _ => ⟨rfl, rfl, rfl, rfl⟩⟩
  | engine s turn ih =>
    intro inWindow
    obtain ⟨k, t, run, free, same⟩ := ih inWindow
    exact ⟨k + 1, t, (run_succ (step_engine turn) k).trans run, free, same⟩
  | host s hb turn ih =>
    intro inWindow
    obtain ⟨t, h, inWindow', waiting, ⟨edge, free⟩ | ⟨same, left, turns⟩⟩ := host_step_of_busy inWindow hb turn
    · exact ⟨1, t, run_succ h 0, free, fun noEdge => absurd noEdge edge⟩
    · obtain ⟨k, u, run, free, same'⟩ := ih t left turns inWindow'
      exact ⟨k + 1, u, (run_succ h k).trans run, free, fun noEdge =>
        same.trans (same' fun i hi => noEdge i (waiting hi))⟩

/-- Settles O38: by induction over the steps of the command in flight. -/
theorem commandCompletes : Obligations.CommandCompletes := by
  unfold Obligations.CommandCompletes
  intro s inWindow
  obtain ⟨k, t, run, free, same⟩ := reaches_free s inWindow
  exact ⟨k, t, run, free, fun _ noEdge => same noEdge⟩

/-! ### A poll ends with the completed command's STATUS (R35, R45) -/

theorem step_poll_of_busy {s : State} {rest : List Input} (hi : s.inputs = .poll :: rest) (hr : s.inReset = false)
    (hb : s.busy = true) (host : engineTurn s = false) :
    step s = .next
      (reply (.data (statusBusy (Config.draw s.draws))) (drawn { s with hostTurns := s.hostTurns - 1 })) := by
  have status : memRead 0x004 (takeInput rest s) = statusBusy (Config.draw s.draws) := memRead_status_of_busy hr hb
  have again : (memRead 0x004 (takeInput rest s)).getLsbD 0 = true := by rw [status, statusBusy_bit0]
  rw [step_input s _ rest hi host]
  refine (pollStep_again again).trans ?_
  rw [status, takeInput, hi.symm]

theorem step_poll_of_free {s : State} {rest : List Input} (hi : s.inputs = .poll :: rest) (hr : s.inReset = false)
    (hb : s.busy = false) : step s = .next (reply (.data (statusWord s)) (drawn (takeInput rest s))) := by
  have status : memRead 0x004 (takeInput rest s) = statusWord s := memRead_status_of_free hr hb
  have done : (memRead 0x004 (takeInput rest s)).getLsbD 0 = false := by
    rw [status]
    exact (statusWord_bits s).1.trans hb
  rw [step_input s _ rest hi (engineTurn_idle s hb), ← status]
  exact pollStep_done done

/-- Settles O39: each turn of the host while the command is in flight reads bit 0 = 1 and waits again, and the first
after it reads STATUS. -/
theorem pollEndsWithResult : Obligations.PollEndsWithResult := by
  unfold Obligations.PollEndsWithResult
  intro s rest
  induction s using inFlight_induction with
  | free s hb =>
    intro hi hr
    have same : statusWord s = statusWord { s with busy := false } := by rw [← hb]
    refine ⟨1, _, [], run_succ (step_poll_of_free hi hr hb) 0, rfl, hb, hr, rfl, rfl, rfl, rfl, rfl, rfl, by simp, ?_⟩
    simp [same]
  | engine s turn ih =>
    intro hi hr
    obtain ⟨k, t, ws, run, rest⟩ := ih hi hr
    exact ⟨k + 1, t, ws, (run_succ (step_engine turn) k).trans run, rest⟩
  | host s hb turn ih =>
    intro hi hr
    have h := step_poll_of_busy hi hr hb turn
    obtain ⟨k, t, ws, run, inputs, busy, inReset, hash, phase, digest, stage, result, ovr, bits, replies⟩ :=
      ih (reply (.data (statusBusy (Config.draw s.draws))) (drawn { s with hostTurns := s.hostTurns - 1 }))
        rfl rfl hi hr
    refine ⟨k + 1, t, statusBusy (Config.draw s.draws) :: ws, (run_succ h k).trans run, inputs, busy, inReset, hash,
      phase, digest, stage, result, ovr, ?_, ?_⟩
    · exact List.forall_mem_cons.mpr ⟨statusBusy_bit0 _, bits⟩
    · rw [replies, reply_replies, drawn_replies, List.map_cons, List.append_assoc s.replies]
      rfl

end Sys2Proof.Machine
end

section
/-! The field and the substitution box (R48 to R53). Multiplication is additive in each factor, so a law in any number
of factors need only be tried on the eight powers of x. -/

namespace Sys2Proof.Machine

/-! ### Additive maps of bytes (R49) -/

/-- The map carries field addition to field addition. -/
def AdditiveMap (f : Byte → Byte) : Prop := ∀ x y, f (x ^^^ y) = f x ^^^ f y

/-- The byte or nothing. -/
def masked (p : Bool) (x : Byte) : Byte := if p then x else 0

theorem masked_xor_bool (p q : Bool) (x : Byte) : masked (p ^^ q) x = masked p x ^^^ masked q x := by
  cases p <;> cases q <;> simp [masked]

theorem masked_xor (p : Bool) (x y : Byte) : masked p (x ^^^ y) = masked p x ^^^ masked p y := by
  cases p <;> simp [masked]

/-- The part of a byte that its bit `i` makes: a power of x or nothing. -/
def bitPart (b : Byte) (i : Nat) : Byte := masked (b.getLsbD i) (0x01#8 <<< i)

/-- The sum of these parts of a byte. -/
def bitSum (b : Byte) (is : List Nat) : Byte := is.foldr (fun i acc => bitPart b i ^^^ acc) 0

theorem getLsbD_bitPart (b : Byte) (i j : Nat) :
    (bitPart b i).getLsbD j = (decide (j < 8 ∧ j = i) && b.getLsbD j) := by
  have power : (0x01#8 <<< i).getLsbD j = decide (j < 8 ∧ j = i) := by
    rw [BitVec.getLsbD_shiftLeft, BitVec.getLsbD_one, Bool.eq_iff_iff]
    simp only [Bool.and_eq_true, Bool.not_eq_true', decide_eq_true_iff, decide_eq_false_iff_not]
    omega
  unfold bitPart masked
  by_cases bit : j = i
  · subst bit
    cases b.getLsbD j <;> simp
  · cases b.getLsbD i with
    | false => simp [bit]
    | true => simp [power, bit]

theorem bitSum_range (b : Byte) : bitSum b (List.range 8) = b := by
  apply BitVec.eq_of_getLsbD_eq
  intro j hj
  simp only [bitSum, List.range_succ, List.range_zero, List.nil_append, List.cons_append, List.foldr_cons,
    List.foldr_nil, BitVec.getLsbD_xor, getLsbD_bitPart]
  interval_cases j <;> simp

theorem AdditiveMap.map_zero {f : Byte → Byte} (hf : AdditiveMap f) : f 0 = 0 := by
  have double := hf 0 0
  rwa [BitVec.xor_self, BitVec.xor_self] at double

theorem additiveMap_id : AdditiveMap id := fun _ _ => rfl

theorem AdditiveMap.comp {f g : Byte → Byte} (hf : AdditiveMap f) (hg : AdditiveMap g) :
    AdditiveMap (fun x => f (g x)) := by
  intro x y
  dsimp only
  rw [hg x y, hf]

/-- Additive maps that agree on the powers of x are equal. -/
theorem AdditiveMap.ext {f g : Byte → Byte} (hf : AdditiveMap f) (hg : AdditiveMap g)
    (powers : ∀ i : Fin 8, f (0x01#8 <<< i.val) = g (0x01#8 <<< i.val)) (b : Byte) : f b = g b := by
  have parts : ∀ i < 8, f (bitPart b i) = g (bitPart b i) := by
    intro i hi
    unfold bitPart
    cases b.getLsbD i with
    | false => exact hf.map_zero.trans hg.map_zero.symm
    | true => exact powers ⟨i, hi⟩
  have sums : ∀ is : List Nat, (∀ i ∈ is, i < 8) → f (bitSum b is) = g (bitSum b is) := by
    intro is
    induction is with
    | nil =>
      intro _
      exact hf.map_zero.trans hg.map_zero.symm
    | cons i is ih =>
      intro small
      obtain ⟨hi, small⟩ := List.forall_mem_cons.mp small
      change f (bitPart b i ^^^ bitSum b is) = g (bitPart b i ^^^ bitSum b is)
      rw [hf, hg, parts i hi, ih small]
  rw [← bitSum_range b]
  exact sums _ fun i hi => List.mem_range.mp hi

/-! ### Multiplication is additive in each factor (R50) -/

/-- Multiplication by x shifts, and reduces by 0x1B when a bit falls out (R50). -/
theorem xtime_eq (a : Byte) : xtime a = (a <<< 1) ^^^ masked (a.getLsbD 7) 0x1B#8 := by
  apply BitVec.eq_of_getLsbD_eq
  intro j hj
  unfold xtime masked
  cases a.getLsbD 7 <;> interval_cases j <;> simp

theorem additiveMap_xtime : AdditiveMap xtime := by
  intro x y
  rw [xtime_eq, xtime_eq, xtime_eq, BitVec.getLsbD_xor, masked_xor_bool, BitVec.shiftLeft_xor_distrib]
  ac_rfl

theorem gmulLoop_succ (b : Byte) (count k : Nat) (r t : Byte) :
    gmulLoop b (count + 1) k r t = gmulLoop b count (k + 1) (r ^^^ masked (b.getLsbD k) t) (xtime t) := by
  rw [gmulLoop]
  cases b.getLsbD k <;> simp [masked]

theorem gmulLoop_add_left (b : Byte) (count k : Nat) (r r' t t' : Byte) :
    gmulLoop b count k (r ^^^ r') (t ^^^ t') = gmulLoop b count k r t ^^^ gmulLoop b count k r' t' := by
  induction count generalizing k r r' t t' with
  | zero => rfl
  | succ count ih =>
    rw [gmulLoop_succ, gmulLoop_succ, gmulLoop_succ, ← ih, additiveMap_xtime, masked_xor]
    congr 1
    ac_rfl

theorem gmulLoop_add_right (b b' : Byte) (count k : Nat) (r r' t : Byte) :
    gmulLoop (b ^^^ b') count k (r ^^^ r') t = gmulLoop b count k r t ^^^ gmulLoop b' count k r' t := by
  induction count generalizing k r r' t with
  | zero => rfl
  | succ count ih =>
    rw [gmulLoop_succ, gmulLoop_succ, gmulLoop_succ, ← ih, BitVec.getLsbD_xor, masked_xor_bool]
    congr 1
    ac_rfl

theorem additiveMap_gmul_left (b : Byte) : AdditiveMap (fun a => gmul a b) := fun x y =>
  gmulLoop_add_left b 8 0 0 0 x y

theorem additiveMap_gmul_right (a : Byte) : AdditiveMap (gmul a) := fun x y =>
  gmulLoop_add_right x y 8 0 0 0 a

/-! ### Multiplication by powers of x, and the laws of the field -/

theorem gmulLoop_xtime (b : Byte) (count k : Nat) (r t : Byte) :
    gmulLoop b count k (xtime r) (xtime t) = xtime (gmulLoop b count k r t) := by
  have maskedEq : ∀ p t, masked p (xtime t) = xtime (masked p t) := by
    intro p t
    cases p
    · exact additiveMap_xtime.map_zero.symm
    · rfl
  induction count generalizing k r t with
  | zero => rfl
  | succ count ih => rw [gmulLoop_succ, gmulLoop_succ, ← ih, additiveMap_xtime, maskedEq]

theorem gmul_iterate_xtime_left (n : Nat) (a b : Byte) : gmul (xtime^[n] a) b = xtime^[n] (gmul a b) := by
  induction n with
  | zero => rfl
  | succ n ih =>
    rw [Function.iterate_succ_apply', Function.iterate_succ_apply', ← ih]
    exact gmulLoop_xtime b 8 0 0 (xtime^[n] a)

/-- The loop adds the one multiple that the power selects. -/
theorem gmul_power (a : Byte) (i : Fin 8) : gmul a (0x01#8 <<< i.val) = xtime^[i.val] a := by
  unfold gmul
  simp only [gmulLoop_succ]
  fin_cases i <;> simp [masked, gmulLoop]

theorem power_eq (i : Fin 8) : xtime^[i.val] 1 = 0x01#8 <<< i.val := by
  revert i
  decide

theorem gmul_one (a : Byte) : gmul a 1 = a := gmul_power a 0

theorem one_gmul (b : Byte) : gmul 1 b = b :=
  (additiveMap_gmul_right 1).ext additiveMap_id (fun i => (gmul_power 1 i).trans (power_eq i)) b

theorem gmul_comm (a b : Byte) : gmul a b = gmul b a := by
  refine (additiveMap_gmul_right a).ext (additiveMap_gmul_left a) (fun i => ?_) b
  rw [gmul_power, ← power_eq, gmul_iterate_xtime_left, one_gmul]

theorem gmul_assoc (a b c : Byte) : gmul (gmul a b) c = gmul a (gmul b c) := by
  refine (additiveMap_gmul_right _).ext ((additiveMap_gmul_right a).comp (additiveMap_gmul_right b)) (fun i => ?_) c
  rw [gmul_power, gmul_power, gmul_comm a (xtime^[i.val] b), gmul_iterate_xtime_left, gmul_comm b a]

/-- Settles O5: the laws hold on the powers of x, where multiplication is `xtime` repeated, and so everywhere. -/
theorem fieldLaws : Obligations.FieldLaws := by
  unfold Obligations.FieldLaws
  exact ⟨fun b => (additiveMap_gmul_left b).map_zero, one_gmul, gmul_comm, gmul_assoc,
    fun a b c => additiveMap_gmul_right a b c, fun a => ⟨BitVec.xor_self, BitVec.xor_zero⟩⟩

/-! ### The factors of MixBytes (R51) -/

theorem gmul_constants (x : Byte) : gmul 2 x = xtime x ∧ gmul 3 x = xtime x ^^^ x ∧ gmul 4 x = xtime (xtime x) ∧
    gmul 5 x = xtime (xtime x) ^^^ x ∧ gmul 7 x = xtime (xtime x) ^^^ xtime x ^^^ x := by
  have two : gmul 2 x = xtime x := (gmul_comm 2 x).trans (gmul_power x 1)
  have four : gmul 4 x = xtime (xtime x) := (gmul_comm 4 x).trans (gmul_power x 2)
  have add : ∀ a b : Byte, gmul (a ^^^ b) x = gmul a x ^^^ gmul b x := additiveMap_gmul_left x
  refine ⟨two, ?three, four, ?five, ?seven⟩
  case three => rw [show (3 : Byte) = 2 ^^^ 1 by decide, add, two, one_gmul]
  case five => rw [show (5 : Byte) = 4 ^^^ 1 by decide, add, four, one_gmul]
  case seven => rw [show (7 : Byte) = 4 ^^^ 2 ^^^ 1 by decide, add, add, four, two, one_gmul]

/-- Settles O6: the matrix by its entries, the multiples as sums of powers of x. -/
theorem constantMultiples : Obligations.ConstantMultiples := by
  unfold Obligations.ConstantMultiples
  exact ⟨by decide, gmul_constants⟩

/-! ### The substitution box (R52, R53) -/

/-- The place of a byte in the table of S. -/
def sboxInv (c : Byte) : Byte := BitVec.ofNat 8 (sboxRows.flatten.idxOf c.toNat)

/-- S as a permutation of the bytes. -/
def sboxPerm : Equiv.Perm Byte where
  toFun := sbox
  invFun := sboxInv
  left_inv := by
    change ∀ b, sboxInv (sbox b) = b
    decide +kernel
  right_inv := by
    change ∀ c, sbox (sboxInv c) = c
    decide +kernel

/-- The field inverse, read off the table by undoing the affine map; 0 for 0. -/
def fieldInv (b : Byte) : Byte :=
  (sbox b).rotateLeft 1 ^^^ (sbox b).rotateLeft 3 ^^^ (sbox b).rotateLeft 6 ^^^ 0x05#8

/-- The table of S, tried on every byte. -/
theorem sbox_table : ∀ b : Byte, (sbox b ≠ b ∧ sbox b ≠ b ^^^ 0xFF#8) ∧
    (b ≠ 0 → gmul b (fieldInv b) = 1) ∧
    sbox b = fieldInv b ^^^ (fieldInv b).rotateLeft 1 ^^^ (fieldInv b).rotateLeft 2 ^^^ (fieldInv b).rotateLeft 3 ^^^
      (fieldInv b).rotateLeft 4 ^^^ 0x63#8 := by
  decide +kernel

theorem sbox_bijective : Function.Bijective sbox := sboxPerm.bijective

/-- Settles O7: the table has an inverse, and none of its 256 entries is a fixed or an opposite fixed point. -/
theorem sboxBijection : Obligations.SboxBijection := by
  unfold Obligations.SboxBijection
  exact ⟨sbox_bijective, fun b => (sbox_table b).1⟩

theorem gmul_fieldInv {b : Byte} (hb : b ≠ 0) : gmul b (fieldInv b) = 1 := by
  obtain ⟨-, inverse, -⟩ := sbox_table b
  exact inverse hb

/-- A byte has one inverse alone, because multiplication is associative (R50). -/
theorem eq_fieldInv {b c : Byte} (inverse : if b = 0 then c = 0 else gmul b c = 1) : c = fieldInv b := by
  split_ifs at inverse with zero
  · rw [zero, inverse]
    decide
  · calc c = gmul (gmul (fieldInv b) b) c := by rw [gmul_comm (fieldInv b) b, gmul_fieldInv zero, one_gmul]
      _ = gmul (fieldInv b) (gmul b c) := gmul_assoc _ _ _
      _ = fieldInv b := by rw [inverse, gmul_one]

/-- Settles O8: the affine map undone gives an inverse of each byte, which is the only one. -/
theorem sboxIsAffineOfInverse : Obligations.SboxIsAffineOfInverse := by
  unfold Obligations.SboxIsAffineOfInverse
  refine ⟨fun b hb => ⟨fieldInv b, gmul_fieldInv hb⟩, fun b c inverse => ?_⟩
  obtain ⟨-, -, affine⟩ := sbox_table b
  rw [eq_fieldInv inverse]
  exact affine

end Sys2Proof.Machine
end

section
/-! The round steps as maps (R55 to R64): AddRoundConstant byte by byte, MixBytes as a matrix over the field, and the
inverse of each step, which makes P and Q bijections. -/

namespace Sys2Proof.Machine

/-! ### Matrix entries by row and column (R54) -/

theorem matrixOf_entry (f : Fin 8 → Fin 8 → Byte) (r c : Fin 8) : (matrixOf f)[r][c] = f r c :=
  getElem_matrixOf f r c r.isLt c.isLt

theorem matrix_eq_of_entries {a b : Matrix} (h : ∀ r c : Fin 8, a[r][c] = b[r][c]) : a = b :=
  matrix_ext a b fun r c hr hc => h ⟨r, hr⟩ ⟨c, hc⟩

/-! ### AddRoundConstant (R55, R56) -/

theorem addRoundConstant_entry (v : Variant) (i : Nat) (a : Matrix) (r c : Fin 8) :
    (addRoundConstant v i a)[r][c] = a[r][c] ^^^ roundConstant v i r c :=
  matrixOf_entry _ r c

theorem addRoundConstant_addRoundConstant (v : Variant) (i : Nat) (a : Matrix) :
    addRoundConstant v i (addRoundConstant v i a) = a := by
  apply matrix_eq_of_entries
  intro r c
  rw [addRoundConstant_entry, addRoundConstant_entry, BitVec.xor_assoc, BitVec.xor_self, BitVec.xor_zero]

/-- AddRoundConstant on the bytes of a block: byte k stands in row k mod 8 and column k div 8. -/
theorem getElem_toBytes_addRoundConstant (v : Variant) (i : Nat) (s : Bytes 64) (k : Fin 64) :
    (toBytes (addRoundConstant v i (toMatrix s)))[k] =
      s[k] ^^^ roundConstant v i ⟨k.val % 8, by omega⟩ ⟨k.val / 8, by omega⟩ := by
  have index : 8 * (k.val / 8) + k.val % 8 = k.val := Nat.div_add_mod k.val 8
  simp [addRoundConstant, gadd, index]

/-- In rounds 0 to 9 the two parts of the constant do not overlap, so that P adds 16c + i and Q 0xFF - 16c and i. -/
theorem columnConstant_eq (c : Fin 8) {i : Nat} (hi : i ≤ 9) :
    columnConstant c i = BitVec.ofNat 8 (16 * c.val + i) ∧
    0xFF#8 ^^^ columnConstant c i = BitVec.ofNat 8 (0xFF - 16 * c.val) ^^^ BitVec.ofNat 8 i := by
  have constants : ∀ (c : Fin 8) (i : Fin 10), columnConstant c i = BitVec.ofNat 8 (16 * c.val + i.val) ∧
      0xFF#8 ^^^ columnConstant c i = BitVec.ofNat 8 (0xFF - 16 * c.val) ^^^ BitVec.ofNat 8 i.val := by decide
  exact constants c ⟨i, by omega⟩

/-- Settles O10: the constants of each variant by row. -/
theorem roundConstants : Obligations.RoundConstants := by
  unfold Obligations.RoundConstants
  refine ⟨?p, ?q, addRoundConstant_addRoundConstant⟩
  case p =>
    intro s i k hi
    obtain ⟨constant, -⟩ := columnConstant_eq ⟨k.val / 8, by omega⟩ hi
    rw [getElem_toBytes_addRoundConstant, roundConstant]
    by_cases row : k.val % 8 = 0
    · rw [if_pos row, if_pos (Fin.ext row), constant]
    · rw [if_neg row, if_neg fun e => row (congrArg Fin.val e), BitVec.xor_zero]
  case q =>
    intro s i k hi
    obtain ⟨-, constant⟩ := columnConstant_eq ⟨k.val / 8, by omega⟩ hi
    rw [getElem_toBytes_addRoundConstant, roundConstant]
    by_cases row : k.val % 8 = 7
    · rw [if_pos row, if_pos (Fin.ext row), constant, BitVec.xor_assoc]
    · rw [if_neg row, if_neg fun e => row (congrArg Fin.val e)]

/-! ### Sums over the field -/

/-- The sum of the values of `f` over a list of indices (R49). -/
def xorSum {ι : Type} (is : List ι) (f : ι → Byte) : Byte := is.foldl (fun acc i => acc ^^^ f i) 0x00#8

section
variable {ι κ : Type} (is : List ι)

theorem foldl_xor (f : ι → Byte) (acc : Byte) : is.foldl (fun acc i => acc ^^^ f i) acc = acc ^^^ xorSum is f := by
  unfold xorSum
  induction is generalizing acc with
  | nil => simp
  | cons i is ih =>
    rw [List.foldl_cons, List.foldl_cons, ih, ih (0x00#8 ^^^ f i), BitVec.zero_xor, BitVec.xor_assoc]

@[simp] theorem xorSum_nil (f : ι → Byte) : xorSum [] f = 0x00#8 := rfl

@[simp] theorem xorSum_cons (i : ι) (f : ι → Byte) : xorSum (i :: is) f = f i ^^^ xorSum is f := by
  rw [xorSum, List.foldl_cons, foldl_xor, BitVec.zero_xor]

theorem xorSum_xor (f g : ι → Byte) : xorSum is (fun i => f i ^^^ g i) = xorSum is f ^^^ xorSum is g := by
  induction is with
  | nil => exact BitVec.xor_self.symm
  | cons i is ih =>
    rw [xorSum_cons, xorSum_cons, xorSum_cons, ih]
    ac_rfl

theorem xorSum_zero : xorSum is (fun _ => 0x00#8) = 0x00#8 := by
  induction is with
  | nil => rfl
  | cons i is ih => rw [xorSum_cons, ih, BitVec.xor_self]

/-- The order of two sums does not matter. -/
theorem xorSum_comm (ks : List κ) (f : ι → κ → Byte) :
    xorSum is (fun i => xorSum ks (f i)) = xorSum ks (fun k => xorSum is fun i => f i k) := by
  induction is with
  | nil => exact (xorSum_zero ks).symm
  | cons i is ih =>
    simp only [xorSum_cons, ih]
    exact (xorSum_xor ks (f i) _).symm

theorem AdditiveMap.map_xorSum {g : Byte → Byte} (hg : AdditiveMap g) (f : ι → Byte) :
    g (xorSum is f) = xorSum is (fun i => g (f i)) := by
  induction is with
  | nil => exact hg.map_zero
  | cons i is ih => rw [xorSum_cons, xorSum_cons, hg, ih]

theorem xorSum_map (e : κ → ι) (ks : List κ) (f : ι → Byte) : xorSum (ks.map e) f = xorSum ks (fun k => f (e k)) :=
  List.foldl_map

theorem xorSum_perm {is js : List ι} (perm : is.Perm js) (f : ι → Byte) : xorSum is f = xorSum js f := by
  induction perm with
  | nil => rfl
  | cons i _ ih => rw [xorSum_cons, xorSum_cons, ih]
  | swap i j is =>
    simp only [xorSum_cons]
    ac_rfl
  | trans _ _ ih ih' => exact ih.trans ih'

end

/-! ### MixBytes as a matrix (R60) -/

/-- Row `r` of a circulant matrix with this first row, times a column. -/
def circulantSum (row : Bytes 8) (r : Fin 8) (column : Fin 8 → Byte) : Byte :=
  xorSum (List.finRange 8) fun k => gmul row[k - r] (column k)

theorem mixBytes_entry (a : Matrix) (r c : Fin 8) :
    (mixBytes a)[r][c] = circulantSum mixRow r (fun k => a[k][c]) :=
  matrixOf_entry _ r c

theorem circulantSum_xor (row : Bytes 8) (r : Fin 8) (f g : Fin 8 → Byte) :
    circulantSum row r (fun k => f k ^^^ g k) = circulantSum row r f ^^^ circulantSum row r g := by
  unfold circulantSum
  rw [← xorSum_xor]
  congr 1
  funext k
  exact additiveMap_gmul_right _ _ _

/-- A circulant matrix turns with the rows: the indices of the sum are the same ones in another order. -/
theorem circulantSum_rotate (row : Bytes 8) (r d : Fin 8) (column : Fin 8 → Byte) :
    circulantSum row r (fun k => column (k + d)) = circulantSum row (r + d) column := by
  have perm : ∀ d : Fin 8, ((List.finRange 8).map (· + d)).Perm (List.finRange 8) := by decide
  calc circulantSum row r (fun k => column (k + d))
      = xorSum (List.finRange 8) (fun k => gmul row[k + d - (r + d)] (column (k + d))) := by
        simp only [circulantSum, add_sub_add_right_eq_sub]
    _ = xorSum ((List.finRange 8).map (· + d)) (fun k => gmul row[k - (r + d)] (column k)) := by
        rw [xorSum_map]
    _ = circulantSum row (r + d) column := xorSum_perm (perm d) _

theorem finRange_eight : List.finRange 8 = [0, 1, 2, 3, 4, 5, 6, 7] := by decide

/-- Settles O12: MixBytes is `circulantSum` of each column. -/
theorem mixBytesLinear : Obligations.MixBytesLinear := by
  unfold Obligations.MixBytesLinear
  refine ⟨?linear, ?columnwise, ?circulant, ?row0⟩
  case linear =>
    intro a b
    apply matrix_eq_of_entries
    intro r c
    simp only [mixBytes_entry, matrixOf_entry]
    exact circulantSum_xor mixRow r _ _
  case columnwise =>
    intro a b c same r
    rw [mixBytes_entry, mixBytes_entry, funext same]
  case circulant =>
    intro a d
    apply matrix_eq_of_entries
    intro r c
    simp only [mixBytes_entry, matrixOf_entry]
    exact circulantSum_rotate mixRow r d fun k => a[k][c]
  case row0 =>
    intro a c
    rw [mixBytes_entry, circulantSum, finRange_eight]
    simp only [xorSum_cons, xorSum_nil, BitVec.xor_zero, BitVec.xor_assoc]
    rfl

/-! ### The inverses of the round steps -/

/-- The first row of the inverse of the MixBytes matrix, which is circulant too. -/
def unmixRow : Bytes 8 := #v[0x13, 0x5A, 0x54, 0x72, 0x50, 0xDF, 0x45, 0x53]

def unmixBytes (a : Matrix) : Matrix := matrixOf fun r c => circulantSum unmixRow r (fun k => a[k][c])

/-- The product of two circulant matrices, applied to a column. -/
theorem circulantSum_circulantSum (row row' : Bytes 8) (r : Fin 8) (column : Fin 8 → Byte) :
    circulantSum row r (fun k => circulantSum row' k column) =
      xorSum (List.finRange 8) (fun j =>
        gmul (xorSum (List.finRange 8) fun k => gmul row[k - r] row'[j - k]) (column j)) := by
  unfold circulantSum
  calc xorSum (List.finRange 8) (fun k => gmul row[k - r]
          (xorSum (List.finRange 8) fun j => gmul row'[j - k] (column j)))
      = xorSum (List.finRange 8) (fun k => xorSum (List.finRange 8) fun j =>
          gmul (gmul row[k - r] row'[j - k]) (column j)) := by
        simp only [(additiveMap_gmul_right _).map_xorSum, gmul_assoc]
    _ = xorSum (List.finRange 8) (fun j => xorSum (List.finRange 8) fun k =>
          gmul (gmul row[k - r] row'[j - k]) (column j)) := xorSum_comm _ _ _
    _ = _ := by
        congr 1
        funext j
        exact ((additiveMap_gmul_left (column j)).map_xorSum _ _).symm

/-- A sum of which one term alone is not zero. -/
theorem xorSum_single (r : Fin 8) (f : Fin 8 → Byte) :
    xorSum (List.finRange 8) (fun j => gmul (if r = j then 1 else 0) (f j)) = f r := by
  have terms : ∀ j, gmul (if r = j then 1 else 0) (f j) = if r = j then f j else 0 := by
    intro j
    split
    · exact one_gmul (f j)
    · exact (additiveMap_gmul_left (f j)).map_zero
  simp only [terms, finRange_eight, xorSum_cons, xorSum_nil]
  fin_cases r <;> simp

/-- Two circulant matrices undo each other when their product is the identity. -/
theorem circulantSum_inverse {row row' : Bytes 8}
    (product : ∀ r j : Fin 8, xorSum (List.finRange 8) (fun k => gmul row[k - r] row'[j - k]) = if r = j then 1 else 0)
    (r : Fin 8) (column : Fin 8 → Byte) :
    circulantSum row r (fun k => circulantSum row' k column) = column r := by
  simp only [circulantSum_circulantSum, product]
  exact xorSum_single r column

/-- The two matrices are inverse to each other: their products, in either order, are the identity. -/
theorem circulant_products : ∀ r j : Fin 8,
    xorSum (List.finRange 8) (fun k => gmul unmixRow[k - r] mixRow[j - k]) = (if r = j then 1 else 0) ∧
    xorSum (List.finRange 8) (fun k => gmul mixRow[k - r] unmixRow[j - k]) = (if r = j then 1 else 0) := by
  decide +kernel

theorem unmixBytes_mixBytes (a : Matrix) : unmixBytes (mixBytes a) = a := by
  apply matrix_eq_of_entries
  intro r c
  rw [unmixBytes, matrixOf_entry]
  simp only [mixBytes_entry]
  exact circulantSum_inverse (fun r j => (circulant_products r j).1) r _

theorem mixBytes_unmixBytes (a : Matrix) : mixBytes (unmixBytes a) = a := by
  apply matrix_eq_of_entries
  intro r c
  rw [mixBytes_entry]
  simp only [unmixBytes, matrixOf_entry]
  exact circulantSum_inverse (fun r j => (circulant_products r j).2) r _

theorem mixBytes_bijective : Function.Bijective mixBytes :=
  Function.bijective_iff_has_inverse.mpr ⟨unmixBytes, unmixBytes_mixBytes, mixBytes_unmixBytes⟩

theorem addRoundConstant_bijective (v : Variant) (i : Nat) : Function.Bijective (addRoundConstant v i) :=
  Function.Involutive.bijective (addRoundConstant_addRoundConstant v i)

theorem subBytes_bijective : Function.Bijective subBytes := by
  obtain ⟨unsub, left, right⟩ := Function.bijective_iff_has_inverse.mp sbox_bijective
  refine Function.bijective_iff_has_inverse.mpr ⟨fun a => matrixOf fun r c => unsub a[r][c], fun a => ?_, fun a => ?_⟩
  · apply matrix_eq_of_entries
    intro r c
    simp only [subBytes, matrixOf_entry]
    exact left _
  · apply matrix_eq_of_entries
    intro r c
    simp only [subBytes, matrixOf_entry]
    exact right _

theorem shiftBytes_bijective (v : Variant) : Function.Bijective (shiftBytes v) := by
  refine Function.bijective_iff_has_inverse.mpr
    ⟨fun a => matrixOf fun r c => a[r][c - shiftOffset v r], fun a => ?_, fun a => ?_⟩
  · apply matrix_eq_of_entries
    intro r c
    simp only [shiftBytes, matrixOf_entry, sub_add_cancel]
  · apply matrix_eq_of_entries
    intro r c
    simp only [shiftBytes, matrixOf_entry, add_sub_cancel_right]

/-! ### P and Q are bijections (R62 to R64) -/

theorem round_bijective (v : Variant) (i : Nat) : Function.Bijective (fun a => round v a i) :=
  mixBytes_bijective.comp ((shiftBytes_bijective v).comp (subBytes_bijective.comp (addRoundConstant_bijective v i)))

theorem foldl_round_bijective (v : Variant) (is : List Nat) : Function.Bijective (fun a => is.foldl (round v) a) := by
  induction is with
  | nil => exact Function.bijective_id
  | cons i is ih => exact ih.comp (round_bijective v i)

theorem toMatrix_bijective : Function.Bijective toMatrix :=
  Function.bijective_iff_has_inverse.mpr ⟨toBytes, toBytes_toMatrix, toMatrix_toBytes⟩

theorem toBytes_bijective : Function.Bijective toBytes :=
  Function.bijective_iff_has_inverse.mpr ⟨toMatrix, toMatrix_toBytes, toBytes_toMatrix⟩

theorem permute_bijective (v : Variant) : Function.Bijective (permute v) := by
  have steps : permute v = toBytes ∘ (fun a => (List.range 10).foldl (round v) a) ∘ toMatrix := by
    funext s
    simp only [permute, rounds, Function.comp_apply]
  rw [steps]
  exact toBytes_bijective.comp ((foldl_round_bijective v _).comp toMatrix_bijective)

/-- Settles O13: each round step has an inverse, so each round has, and so have ten of them. -/
theorem permutationsBijective : Obligations.PermutationsBijective := by
  unfold Obligations.PermutationsBijective
  exact ⟨permute_bijective .p, permute_bijective .q⟩

end Sys2Proof.Machine
end

section
/-! The host's statements (R45, R46): which inputs each statement stands for, and what the STAGE pseudo-instruction
leaves when its writes run. -/

namespace Sys2Proof.Machine

/-! ### Sequences of statements (R45, R46) -/

theorem assembleBasic_update {n : Nat} (short : n ≤ 512) :
    assembleBasic (.update n) = .ok (.access (.write 0x000 4 (encode (.update (BitVec.ofNat 10 n))))) := by
  rw [encode_update_ofNat short, assembleBasic, if_pos short]
  rfl

theorem assembleBasic_update_too_long {n : Nat} (long : 512 < n) :
    assembleBasic (.update n) = .error .updateTooLong := by
  rw [assembleBasic, if_neg (Nat.not_le.mpr long)]

theorem assembleBasic_access {off : Nat} (v : Word) (aligned : off % 4 = 0) (inside : off ≤ 0x1FC) :
    assembleBasic (.wr off v) = .ok (.access (.write off 4 v)) ∧
    assembleBasic (.rd off) = .ok (.access (.read off 4)) := by
  have good : asmOffset off = true := decide_eq_true ⟨aligned, inside⟩
  simp [assembleBasic, good]

theorem assembleBasic_badOffset {off : Nat} (v : Word) (bad : off % 4 ≠ 0 ∨ 0x1FC < off) :
    assembleBasic (.wr off v) = .error .badOffset ∧ assembleBasic (.rd off) = .error .badOffset := by
  have refused : asmOffset off = false := decide_eq_false (by omega)
  simp [assembleBasic, refused]

/-- One statement assembles to what its expansion assembles to. -/
theorem assemble_single {st : Stmt} {bs : List BasicStmt} (expanded : expand st = .ok bs) :
    assemble [st] = assembleAll bs := by
  simp only [assemble, expanded]
  cases assembleAll bs <;> simp

theorem assembleAll_single (b : BasicStmt) : assembleAll [b] = (assembleBasic b).map fun i => [i] := by
  simp only [assembleAll]
  cases assembleBasic b <;> rfl

/-- A statement assembles and the statements behind it do, or the program is refused (R45). -/
theorem assemble_cons_ok {st : Stmt} {p : List Stmt} {is : List Input} :
    assemble (st :: p) = .ok is ↔
      ∃ bs js ks, expand st = .ok bs ∧ assembleAll bs = .ok js ∧ assemble p = .ok ks ∧ is = js ++ ks := by
  simp only [assemble]
  constructor
  · intro h
    split at h
    · cases h
    · split at h
      · cases h
        exact ⟨_, _, _, by assumption, by assumption, by assumption, rfl⟩
      · cases h
      · cases h
  · rintro ⟨bs, js, ks, expanded, first, rest, rfl⟩
    simp only [expanded, first, rest]

theorem assemble_append {p q : List Stmt} {is js : List Input} (hp : assemble p = .ok is) (hq : assemble q = .ok js) :
    assemble (p ++ q) = .ok (is ++ js) := by
  induction p generalizing is with
  | nil =>
    cases hp
    exact hq
  | cons st p ih =>
    obtain ⟨bs, js', ks, expanded, first, rest, rfl⟩ := assemble_cons_ok.mp hp
    exact assemble_cons_ok.mpr ⟨bs, js', ks ++ js, expanded, first, ih rest, by rw [List.append_assoc]⟩

/-- Settles O59: each statement by its expansion. -/
theorem hostStatements : Obligations.HostStatements := by
  unfold Obligations.HostStatements
  refine ⟨rfl, rfl, fun n => assembleBasic_update, fun n => assembleBasic_update_too_long, fun w => rfl,
    fun off v => assembleBasic_access v, fun off v => assembleBasic_badOffset v, rfl, ?basic, ?absorb, ?absorbLong,
    rfl, rfl, rfl, ?stageLong, fun p q is js => assemble_append⟩
  case basic =>
    intro b
    rw [assemble_single (st := .basic b) rfl, assembleAll_single]
    cases assembleBasic b <;> rfl
  case absorb =>
    intro n short
    rw [assemble_single (st := .absorb n) rfl]
    simp only [assembleAll, assembleBasic_update short]
    rfl
  case absorbLong =>
    intro n long
    rw [assemble_single (st := .absorb n) rfl]
    simp only [assembleAll, assembleBasic_update_too_long long]
  case stageLong =>
    intro bytes long
    simp [assemble, expand, Nat.not_le.mpr long]

/-! ### The STAGE pseudo-instruction (R46) -/

/-- The host's write of a STAGE word. -/
def stageWrite (bytes : List Byte) (w : Nat) : Input := .access (.write (0x100 + 4 * w) 4 (stageWord bytes w))

theorem assembleAll_wr (ws : List Nat) (f : Nat → Word) (small : ∀ w ∈ ws, w < 16) :
    assembleAll (ws.map fun w => .wr (0x100 + 4 * w) (f w)) =
      .ok (ws.map fun w => .access (.write (0x100 + 4 * w) 4 (f w))) := by
  induction ws with
  | nil => rfl
  | cons w ws ih =>
    obtain ⟨hw, small⟩ := List.forall_mem_cons.mp small
    obtain ⟨write, -⟩ := assembleBasic_access (off := 0x100 + 4 * w) (f w) (by omega) (by omega)
    simp only [List.map_cons, assembleAll, write, ih small]

theorem assemble_stage {bytes : List Byte} (short : bytes.length ≤ 64) :
    assemble [.stage bytes] = .ok ((List.range ((bytes.length + 3) / 4)).map (stageWrite bytes)) := by
  have expanded : expand (.stage bytes) = .ok ((List.range ((bytes.length + 3) / 4)).map fun w =>
      .wr (0x100 + 4 * w) (stageWord bytes w)) := if_pos short
  rw [assemble_single expanded]
  refine assembleAll_wr _ (stageWord bytes) fun w hw => ?_
  have := List.mem_range.mp hw
  omega

/-- STAGE after these words of the bytes are written. -/
def stageAfter (bytes : List Byte) (stage : Bytes 64) (ws : List Nat) : Bytes 64 :=
  ws.foldl (fun stage w => setBusWord stage w (stageWord bytes w)) stage

/-- The writes run one after another on a free core and change STAGE alone. -/
theorem run_stageWrites (bytes : List Byte) {ws : List Nat} (small : ∀ w ∈ ws, w < 16) {s : State}
    (hi : s.inputs = ws.map (stageWrite bytes)) (hr : s.inReset = false) (hb : s.busy = false) :
    ∃ t, Host.Core.run core ws.length s = .next t ∧ t = { s with
      stage := stageAfter bytes s.stage ws, inputs := [], hostTurns := t.hostTurns, replies := t.replies } := by
  induction ws generalizing s with
  | nil => exact ⟨s, rfl, by cases s; cases hi; rfl⟩
  | cons w ws ih =>
    obtain ⟨hw, small⟩ := List.forall_mem_cons.mp small
    rw [List.map_cons] at hi
    have h := step_write hi (engineTurn_idle s hb) (by omega) (by omega)
      (memWrite_stageWord (s := takeInput (ws.map (stageWrite bytes)) s) hr hw (stageWord bytes w))
    obtain ⟨t, run, final⟩ := ih small (s := reply .done { takeInput (ws.map (stageWrite bytes)) s with
      stage := setBusWord s.stage w (stageWord bytes w) }) rfl hr hb
    exact ⟨t, (run_succ h _).trans run, final⟩

/-- Lane `j` of word `w` of the bytes is byte `4w + j`, or 0 behind the last (R46). -/
theorem lane_stageWord (bytes : List Byte) (w : Nat) {j : Nat} (hj : j < 4) :
    lane (stageWord bytes w) j = bytes.getD (4 * w + j) 0 := by
  obtain ⟨lane0, lane1, lane2, lane3⟩ := lane_laneWord (bytes.getD (4 * w) 0) (bytes.getD (4 * w + 1) 0)
    (bytes.getD (4 * w + 2) 0) (bytes.getD (4 * w + 3) 0)
  unfold stageWord
  interval_cases j
  · exact lane0
  · exact lane1
  · exact lane2
  · exact lane3

theorem getElem_stageAfter (bytes : List Byte) (stage : Bytes 64) (n k : Nat) (hk : k < 64) :
    (stageAfter bytes stage (List.range n))[k] = if k / 4 < n then bytes.getD k 0 else stage[k] := by
  induction n with
  | zero => rfl
  | succ n ih =>
    have last : stageAfter bytes stage (List.range (n + 1)) =
        setBusWord (stageAfter bytes stage (List.range n)) n (stageWord bytes n) := by
      simp [stageAfter, List.range_succ]
    simp only [last, getElem_setBusWord, ih]
    by_cases word : k / 4 = n
    · have index : 4 * n + k % 4 = k := by omega
      rw [if_pos word, if_pos (by omega), lane_stageWord bytes n (Nat.mod_lt k (by decide)), index]
    · rw [if_neg word]
      congr 1
      rw [eq_iff_iff]
      omega

/-- Settles O60: the writes run, and the bytes behind the last, to the end of its word, are 0. -/
theorem stagePseudoInstruction : Obligations.StagePseudoInstruction := by
  unfold Obligations.StagePseudoInstruction
  intro s bytes short hr hb assembled
  have hi : s.inputs = (List.range ((bytes.length + 3) / 4)).map (stageWrite bytes) :=
    Except.ok.inj (assembled.symm.trans (assemble_stage short))
  obtain ⟨t, run, final⟩ := run_stageWrites bytes (fun w hw => by have := List.mem_range.mp hw; omega) hi hr hb
  have count : s.inputs.length = (List.range ((bytes.length + 3) / 4)).length := by rw [hi, List.length_map]
  refine ⟨t, by rw [count]; exact run, by rw [final], by rw [final], fun k => ?_⟩
  have stage : t.stage = stageAfter bytes s.stage (List.range ((bytes.length + 3) / 4)) := by rw [final]
  rw [stage, Fin.getElem_fin, getElem_stageAfter]
  by_cases given : k.val < bytes.length
  · rw [if_pos given, if_pos (by omega)]
  · rw [if_neg given]
    by_cases filled : k.val < 4 * ((bytes.length + 3) / 4)
    · rw [if_pos filled, if_pos (by omega), List.getD_eq_default _ _ (Nat.not_lt.mp given)]
      rfl
    · rw [if_neg filled, if_neg (by omega)]
      rfl

end Sys2Proof.Machine
end

section
/-! Messages as bits and as bytes (R7, R83, R84): the bits of a byte string, the bytes of the padded message and its
blocks. -/

namespace Sys2Proof.Machine

/-! ### Bits of bytes and bytes of bits (R7) -/

@[simp] theorem length_byteBits (b : Byte) : (byteBits b).length = 8 := by simp [byteBits]

theorem getD_byteBits (b : Byte) {i : Nat} (hi : i < 8) : (byteBits b).getD i false = b.getLsbD (7 - i) := by
  simp [byteBits, hi]

@[simp] theorem length_flatMap_byteBits (bs : List Byte) : (bs.flatMap byteBits).length = 8 * bs.length := by
  induction bs with
  | nil => rfl
  | cons b bs ih =>
    rw [List.flatMap_cons, List.length_append, ih, length_byteBits, List.length_cons]
    omega

theorem getD_flatMap_byteBits (bs : List Byte) (i : Nat) :
    (bs.flatMap byteBits).getD i false = (bs.getD (i / 8) 0).getLsbD (7 - i % 8) := by
  induction bs generalizing i with
  | nil => simp
  | cons b bs ih =>
    rw [List.flatMap_cons]
    by_cases first : i < 8
    · have index : i / 8 = 0 ∧ i % 8 = i := by omega
      rw [List.getD_append _ _ _ _ (by rw [length_byteBits]; exact first), getD_byteBits b first, index.1, index.2,
        List.getD_cons_zero]
    · have index : i / 8 = (i - 8) / 8 + 1 ∧ i % 8 = (i - 8) % 8 := by omega
      rw [List.getD_append_right _ _ _ _ (by rw [length_byteBits]; omega), length_byteBits, ih, index.1, index.2,
        List.getD_cons_succ]

theorem getLsbD_packByte (f : Nat → Bool) {j : Nat} (hj : j < 8) : (packByte f).getLsbD j = f (7 - j) := by
  simp only [packByte, List.range_succ, List.range_zero, List.nil_append, List.cons_append, List.foldl_cons,
    List.foldl_nil, BitVec.getLsbD_or, BitVec.getLsbD_shiftLeft, BitVec.getLsbD_setWidth]
  interval_cases j <;> simp

theorem packByte_eq {f : Nat → Bool} {b : Byte} (bits : ∀ i, i < 8 → f i = b.getLsbD (7 - i)) : packByte f = b := by
  apply BitVec.eq_of_getLsbD_eq
  intro j hj
  have index : 7 - (7 - j) = j := by omega
  rw [getLsbD_packByte f hj, bits (7 - j) (by omega), index]

/-- Block `j` of a byte string, zeros behind its end. -/
def blockOf (bs : List Byte) (j : Nat) : Bytes 64 := Vector.ofFn fun k => bs.getD (64 * j + k.val) 0

@[simp] theorem getElem_blockOf (bs : List Byte) (j k : Nat) (hk : k < 64) :
    (blockOf bs j)[k] = bs.getD (64 * j + k) 0 := by
  simp [blockOf]

/-- The blocks of the bits of a byte string are those of the byte string. -/
theorem blockAt_flatMap_byteBits (bs : List Byte) (j : Nat) : blockAt (bs.flatMap byteBits) j = blockOf bs j := by
  apply Vector.ext
  intro k hk
  rw [getElem_blockOf, blockAt, Vector.getElem_ofFn]
  refine packByte_eq fun i hi => ?_
  have index : (512 * j + 8 * k + i) / 8 = 64 * j + k ∧ (512 * j + 8 * k + i) % 8 = i := by omega
  rw [getD_flatMap_byteBits, index.1, index.2]

/-- Whole bytes and the first bits of the next, of the bits of a byte string. -/
theorem take_flatMap_byteBits (bs : List Byte) {n r : Nat} (hr : r < 8) (inside : n < bs.length ∨ r = 0) :
    (bs.flatMap byteBits).take (8 * n + r) = (bs.take n).flatMap byteBits ++ (byteBits (bs.getD n 0)).take r := by
  induction bs generalizing n with
  | nil =>
    rcases inside with impossible | rfl
    · simp at impossible
    · simp
  | cons b bs ih =>
    rw [List.flatMap_cons]
    cases n with
    | zero => simp [List.take_append, hr.le]
    | succ n =>
      have more : 8 * (n + 1) + r = 8 + (8 * n + r) := by omega
      have inside' : n < bs.length ∨ r = 0 := by simpa using inside
      rw [List.take_append, length_byteBits, List.take_of_length_le (by rw [length_byteBits]; omega), more,
        Nat.add_sub_cancel_left, ih inside', List.take_succ_cons, List.flatMap_cons, List.append_assoc,
        List.getD_cons_succ]

theorem getD_toList {n : Nat} (bytes : Bytes n) (k : Nat) : bytes.toList.getD k 0 = byteAt bytes k := by
  by_cases inside : k < n
  · rw [byteAt_of_lt _ _ inside]
    simp [inside]
  · rw [byteAt_of_le _ _ (by omega), List.getD_eq_default _ _ (by simpa using inside)]
    rfl

/-- The message bits of an UPDATE: those of its whole bytes, then those of its partial byte (R76, R77). -/
theorem chunkBits_eq (c : Chunk) (short : c.bitlen.toNat ≤ 512) :
    chunkBits c = (c.stage.toList.take (wholeBytes c.bitlen)).flatMap byteBits ++
      (byteBits (byteAt c.stage (wholeBytes c.bitlen))).take (tailBits c.bitlen) := by
  have length : c.bitlen.toNat = 8 * wholeBytes c.bitlen + tailBits c.bitlen := (Nat.div_add_mod _ 8).symm
  have fits := wholeBytes_le short
  rw [chunkBits, length, take_flatMap_byteBits _ (tailBits_lt _) (by simp; omega), getD_toList]

/-! ### The padded message as bytes (R84) -/

/-- The bits of the partial byte, the pad bit and zeros make the pad byte (R79, R84). -/
theorem byteBits_padPartial {r : Nat} (x : Byte) (hr : r < 8) :
    byteBits (padPartial r x) = (byteBits x).take r ++ [true] ++ List.replicate (7 - r) false := by
  have bits : byteBits (padPartial r x) =
      (List.range 8).map fun i => if 8 - r ≤ 7 - i then x.getLsbD (7 - i) else decide (7 - i = 7 - r) := by
    apply List.map_congr_left
    intro i _
    exact getLsbD_padPartial x (by omega) (by omega)
  rw [bits, byteBits]
  simp only [List.range_succ, List.range_zero, List.nil_append, List.cons_append, List.map_cons, List.map_nil]
  interval_cases r <;> simp

theorem flatMap_byteBits_replicate (z : Nat) :
    (List.replicate z 0#8).flatMap byteBits = List.replicate (8 * z) false := by
  induction z with
  | zero => rfl
  | succ z ih =>
    rw [List.replicate_succ, List.flatMap_cons, ih, Nat.mul_succ, Nat.add_comm, ← List.replicate_append_replicate]
    rfl

/-- The bytes of the padded message: the whole bytes, the pad byte, zeros and the length field. -/
def paddedBytes (bs : List Byte) (r : Nat) (x : Byte) : List Byte :=
  bs ++ padPartial r x :: (List.replicate (zeroBits (8 * bs.length + r) / 8) 0#8 ++
    (be64 (BitVec.ofNat 64 (blockCount (8 * bs.length + r)))).toList)

theorem length_message (bs : List Byte) {r : Nat} (x : Byte) (hr : r < 8) :
    (bs.flatMap byteBits ++ (byteBits x).take r).length = 8 * bs.length + r := by
  rw [List.length_append, length_flatMap_byteBits, List.length_take, length_byteBits]
  omega

theorem paddedBits_eq (bs : List Byte) {r : Nat} (x : Byte) (hr : r < 8) :
    paddedBits (bs.flatMap byteBits ++ (byteBits x).take r) = (paddedBytes bs r x).flatMap byteBits := by
  have zeros : zeroBits (8 * bs.length + r) = 7 - r + 8 * (zeroBits (8 * bs.length + r) / 8) := by
    unfold zeroBits
    omega
  have padding : List.replicate (zeroBits (8 * bs.length + r)) false =
      List.replicate (7 - r) false ++ List.replicate (8 * (zeroBits (8 * bs.length + r) / 8)) false := by
    rw [List.replicate_append_replicate, ← zeros]
  rw [paddedBits, length_message bs x hr, padding, paddedBytes, List.flatMap_append, List.flatMap_cons,
    List.flatMap_append, byteBits_padPartial x hr, flatMap_byteBits_replicate]
  simp only [List.append_assoc]

/-- How many bytes the padded message has: whole blocks of them. -/
theorem length_padding (bs : List Byte) {r : Nat} (hr : r < 8) :
    bs.length + 1 + zeroBits (8 * bs.length + r) / 8 + 8 = 64 * blockCount (8 * bs.length + r) := by
  unfold zeroBits blockCount
  omega

/-- The bytes of the padded message, one by one: the length field is the last eight of the last block. -/
theorem getD_paddedBytes (bs : List Byte) {r : Nat} (x : Byte) (hr : r < 8) {j k : Nat} (hk : k < 64)
    (inside : j < blockCount (8 * bs.length + r)) :
    (paddedBytes bs r x).getD (64 * j + k) 0 =
      if 64 * j + k < bs.length then bs.getD (64 * j + k) 0
      else if 64 * j + k = bs.length then padPartial r x
      else if j + 1 = blockCount (8 * bs.length + r) ∧ 56 ≤ k then
        (BitVec.ofNat 64 (blockCount (8 * bs.length + r))).extractLsb' (8 * (63 - k)) 8
      else 0x00#8 := by
  have total := length_padding bs hr
  unfold paddedBytes
  rcases lt_trichotomy (64 * j + k) bs.length with message | pad | after
  · rw [if_pos message, List.getD_append _ _ _ _ message]
  · rw [if_neg (by omega), if_pos pad, List.getD_append_right _ _ _ _ (by omega), pad, Nat.sub_self,
      List.getD_cons_zero]
  · rw [if_neg (by omega), if_neg (by omega), List.getD_append_right _ _ _ _ (by omega),
      show 64 * j + k - bs.length = (64 * j + k - bs.length - 1) + 1 by omega, List.getD_cons_succ]
    by_cases lengthField : j + 1 = blockCount (8 * bs.length + r) ∧ 56 ≤ k
    · rw [if_pos lengthField, List.getD_append_right _ _ _ _ (by rw [List.length_replicate]; omega), getD_toList,
        List.length_replicate]
      have index : 64 * j + k - bs.length - 1 - zeroBits (8 * bs.length + r) / 8 = k - 56 := by omega
      have place : 7 - (k - 56) = 63 - k := by omega
      rw [index, byteAt_of_lt _ _ (by omega), getElem_be64, place]
    · rw [if_neg lengthField, List.getD_append _ _ _ _ (by rw [List.length_replicate]; omega)]
      simp

end Sys2Proof.Machine
end

section
/-! Whole messages (R83, R84): INIT and the UPDATEs absorb the bytes of the message from IV, FINALIZE adds those of the
padding, and together they are the blocks of the padded message. -/

namespace Sys2Proof.Machine

/-! ### The blocks absorbed so far (R76) -/

/-- The chaining value after the first `q` blocks of a byte string, from IV (R65, R66). -/
def chainBytes (bs : List Byte) (q : Nat) : Bytes 64 :=
  (List.range q).foldl (fun cv j => compress cv (blockOf bs j)) iv

theorem chainBytes_succ (bs : List Byte) (q : Nat) :
    chainBytes bs (q + 1) = compress (chainBytes bs q) (blockOf bs q) := by
  simp [chainBytes, List.range_succ]

theorem chainBytes_congr {bs cs : List Byte} {q : Nat} (same : ∀ i, i < 64 * q → bs.getD i 0 = cs.getD i 0) :
    chainBytes bs q = chainBytes cs q := by
  induction q with
  | zero => simp [chainBytes]
  | succ q ih =>
    have block : blockOf bs q = blockOf cs q := by
      apply Vector.ext
      intro k hk
      rw [getElem_blockOf, getElem_blockOf]
      exact same _ (by omega)
    rw [chainBytes_succ, chainBytes_succ, ih fun i hi => same i (by omega), block]

/-- The HashState after INIT and these whole bytes: full blocks are absorbed and the rest is buffered. -/
structure Absorbed (bs : List Byte) (h : HashState) : Prop where
  cv : h.cv = chainBytes bs (bs.length / 64)
  blkcnt : h.blkcnt = BitVec.ofNat 64 (bs.length / 64)
  buflen : h.buflen.toNat = bs.length % 64
  pend : h.pend = 0
  buf : ∀ k (hk : k < 64), k < bs.length % 64 → h.buf[k] = bs.getD (64 * (bs.length / 64) + k) 0

theorem getD_append_singleton (bs : List Byte) (b : Byte) {i : Nat} (hi : i < bs.length) :
    (bs ++ [b]).getD i 0 = bs.getD i 0 := List.getD_append _ _ _ _ hi

theorem absorbed_absorbByte {bs : List Byte} {h : HashState} (absorbed : Absorbed bs h) (b : Byte) :
    Absorbed (bs ++ [b]) (absorbByte h b) := by
  obtain ⟨cv, blkcnt, buflen, pend, buf⟩ := absorbed
  have length : (bs ++ [b]).length = bs.length + 1 := by simp
  have chain : chainBytes (bs ++ [b]) (bs.length / 64) = chainBytes bs (bs.length / 64) :=
    chainBytes_congr fun i hi => getD_append_singleton bs b (by omega)
  have pushed : ∀ k (hk : k < 64), k < bs.length % 64 + 1 →
      (pushByte b h).buf[k] = (bs ++ [b]).getD (64 * (bs.length / 64) + k) 0 := by
    intro k hk below
    simp only [pushByte_buf, getElem_setByte, buflen]
    by_cases last : k = bs.length % 64
    · have index : 64 * (bs.length / 64) + k = bs.length := by omega
      rw [if_pos last, index]
      simp
    · rw [if_neg last, buf k hk (by omega), getD_append_singleton bs b (by omega)]
  rcases absorbByte_cases h b with ⟨notLast, eq⟩ | ⟨last, eq⟩
  · have room : bs.length % 64 ≠ 63 := fun full => notLast (BitVec.eq_of_toNat_eq (buflen.trans full))
    have same : (bs.length + 1) / 64 = bs.length / 64 ∧ (bs.length + 1) % 64 = bs.length % 64 + 1 := by omega
    rw [eq]
    constructor
    · rw [length, same.1, chain]
      exact cv
    · rw [length, same.1]
      exact blkcnt
    · rw [length, same.2, pushByte_buflen]
      bv_omega
    · exact pend
    · intro k hk below
      rw [length, same.2] at below
      rw [length, same.1]
      exact pushed k hk below
  · have full : bs.length % 64 = 63 := buflen.symm.trans (congrArg BitVec.toNat last)
    have next : (bs.length + 1) / 64 = bs.length / 64 + 1 ∧ (bs.length + 1) % 64 = 0 := by omega
    have block : (pushByte b h).buf = blockOf (bs ++ [b]) (bs.length / 64) := by
      apply Vector.ext
      intro k hk
      rw [getElem_blockOf]
      exact pushed k hk (by omega)
    rw [eq]
    constructor
    · rw [length, next.1, chainBytes_succ, chain, absorb_cv, block, pushByte_cv, cv]
    · rw [length, next.1, absorb_blkcnt, pushByte_blkcnt, blkcnt, BitVec.ofNat_add]
      rfl
    · rw [length, next.2]
      rfl
    · exact pend
    · intro k hk below
      rw [length, next.2] at below
      exact absurd below (Nat.not_lt_zero k)

theorem absorbed_hashInit : Absorbed [] hashInit :=
  ⟨rfl, rfl, rfl, rfl, fun k _ below => absurd below (Nat.not_lt_zero k)⟩

theorem absorbed_absorbBytes (bs : List Byte) : Absorbed bs (absorbBytes hashInit bs) := by
  induction bs using List.reverseRecOn with
  | nil => exact absorbed_hashInit
  | append_singleton bs b ih =>
    rw [absorbBytes_append, absorbBytes_cons, absorbBytes_nil]
    exact absorbed_absorbByte ih b

/-! ### What the UPDATEs of a message leave (R76, R77, R83) -/

theorem chunksAligned_cons_cons {c d : Chunk} {rest : List Chunk} (aligned : chunksAligned (c :: d :: rest) = true) :
    c.bitlen.toNat ≤ 512 ∧ tailBits c.bitlen = 0 ∧ chunksAligned (d :: rest) = true := by
  obtain ⟨first, rest⟩ := Bool.and_eq_true_iff.mp aligned
  obtain ⟨short, bytes⟩ := of_decide_eq_true first
  exact ⟨short, bytes, rest⟩

theorem execChunks_cons {c : Chunk} {s : State} (rest : List Chunk) (ready : s.phase = .ready) (whole : s.hash.pend = 0)
    (short : c.bitlen.toNat ≤ 512) :
    execChunks (c :: rest) s =
      execChunks rest { staged c.stage s with hash := updateHash c.bitlen c.stage s.hash, result := .ok } := by
  have executed := exec_update_ready (staged c.stage s) c.bitlen ready whole short
  simp only [execChunks, executed, staged_stage, staged_hash]

/-- The UPDATEs of a legal split all complete, and their bytes and the bits of the last partial byte are the message. -/
theorem execChunks_of_aligned {cs : List Chunk} (aligned : chunksAligned cs = true) {s : State}
    (ready : s.phase = .ready) (whole : s.hash.pend = 0) : ∃ t bs r x, execChunks cs s = .next t ∧ t.phase = .ready ∧ r < 8 ∧
      t.hash = absorbTail r x (absorbBytes s.hash bs) ∧
      messageBits cs = bs.flatMap byteBits ++ (byteBits x).take r := by
  induction cs generalizing s with
  | nil => exact ⟨s, [], 0, 0, rfl, ready, by decide, rfl, rfl⟩
  | cons c rest ih =>
    cases rest with
    | nil =>
      have short : c.bitlen.toNat ≤ 512 := of_decide_eq_true aligned
      refine ⟨_, c.stage.toList.take (wholeBytes c.bitlen), tailBits c.bitlen, byteAt c.stage (wholeBytes c.bitlen),
        execChunks_cons [] ready whole short, ready, tailBits_lt _, rfl, ?_⟩
      rw [messageBits, List.flatMap_singleton, chunkBits_eq c short]
    | cons d rest =>
      obtain ⟨short, noTail, aligned⟩ := chunksAligned_cons_cons aligned
      have hash := updateHash_of_no_tail c.stage s.hash noTail
      obtain ⟨t, bs, r, x, executed, ready', hr, final, bits⟩ := ih aligned
        (s := { staged c.stage s with hash := updateHash c.bitlen c.stage s.hash, result := .ok }) ready
        (by rw [hash]; exact (absorbBytes_pend _ _).trans whole)
      refine ⟨t, c.stage.toList.take (wholeBytes c.bitlen) ++ bs, r, x,
        (execChunks_cons _ ready whole short).trans executed, ready', hr, ?_, ?_⟩
      · rw [final, hash, absorbBytes_append]
      · have first : messageBits (c :: d :: rest) = chunkBits c ++ messageBits (d :: rest) := List.flatMap_cons
        rw [first, bits, chunkBits_eq c short, noTail, List.take_zero, List.append_nil, List.flatMap_append,
          List.append_assoc]

/-! ### FINALIZE absorbs the padding (R79 to R82, R84) -/

/-- The HashState of a whole message: the bytes are absorbed and a partial byte of `r` bits is buffered. -/
structure MessageHash (bs : List Byte) (r : Nat) (x : Byte) (h : HashState) : Prop where
  cv : h.cv = chainBytes bs (bs.length / 64)
  blkcnt : h.blkcnt = BitVec.ofNat 64 (bs.length / 64)
  position : PadPosition h (bs.length % 64)
  padded : padByte h (byteAt h.buf (bs.length % 64)) = padPartial r x
  buf : ∀ k (hk : k < 64), k < bs.length % 64 → h.buf[k] = bs.getD (64 * (bs.length / 64) + k) 0

theorem padPartial_zero (x : Byte) : padPartial 0 x = 0x80#8 := by
  have masked : 0xFF#8 <<< (8 - 0) = 0#8 := by decide
  rw [padPartial, masked, BitVec.and_zero, BitVec.zero_or]
  rfl

theorem messageHash_absorbTail {bs : List Byte} {r : Nat} (x : Byte) (hr : r < 8) {h : HashState}
    (absorbed : Absorbed bs h) : MessageHash bs r x (absorbTail r x h) := by
  obtain ⟨cv, blkcnt, buflen, whole, buf⟩ := absorbed
  have inside : bs.length % 64 < 64 := Nat.mod_lt _ (by decide)
  rcases absorbTail_cases r x h with ⟨rfl, same⟩ | ⟨partialByte, pushed⟩
  · rw [same]
    exact ⟨cv, blkcnt, (if_pos whole).mpr buflen.symm, (if_pos whole).trans (padPartial_zero x).symm, buf⟩
  · have count : (BitVec.ofNat 3 r).toNat = r := by
      rw [BitVec.toNat_ofNat]
      exact Nat.mod_eq_of_lt hr
    have pending : BitVec.ofNat 3 r ≠ 0 := fun zero => partialByte (count.symm.trans (congrArg BitVec.toNat zero))
    rw [pushed]
    refine ⟨cv, blkcnt, (if_neg pending).mpr ?_, (if_neg pending).trans ?_, fun k hk below => ?_⟩
    · simp only [pushByte_buflen]
      bv_omega
    · simp only [count]
      rw [byteAt_of_lt _ _ inside]
      simp only [pushByte_buf, getElem_setByte, buflen, if_pos]
    · simp only [pushByte_buf, getElem_setByte, buflen]
      rw [if_neg (by omega)]
      exact buf k hk below

/-- The last blocks of the padded message are those that FINALIZE pads: here byte by byte, with zeros in place of the
length field. -/
theorem getElem_paddedBlock_of_message {bs : List Byte} {r : Nat} {x : Byte} {h : HashState}
    (message : MessageHash bs r x h) (stop : Nat) {k : Nat} (hk : k < 64) (below : k < stop) :
    (paddedBlock h (bs.length % 64) stop)[k] =
      if 64 * (bs.length / 64) + k < bs.length then bs.getD (64 * (bs.length / 64) + k) 0
      else if 64 * (bs.length / 64) + k = bs.length then padPartial r x else 0x00#8 := by
  have buf := message.buf k hk
  have padded := message.padded
  rw [getElem_paddedBlock]
  rcases lt_trichotomy k (bs.length % 64) with before | pad | after
  · rw [if_neg (by omega), if_neg (by omega), if_pos (by omega), buf before]
  · subst pad
    rw [byteAt_of_lt _ _ hk] at padded
    rw [if_neg (by omega), if_pos rfl, if_neg (by omega), if_pos (by omega), padded]
  · rw [if_pos ⟨after, below⟩, if_neg (by omega), if_neg (by omega)]

theorem blockCount_of_room {length r : Nat} (hr : r < 8) (room : length % 64 < 56) :
    blockCount (8 * length + r) = length / 64 + 1 := by
  unfold blockCount
  omega

theorem blockCount_of_spill {length r : Nat} (hr : r < 8) (full : 56 ≤ length % 64) :
    blockCount (8 * length + r) = length / 64 + 2 := by
  unfold blockCount
  omega

/-- With room for the length field the padded block is the last of the padded message (R81). -/
theorem onlyBlock_of_message {bs : List Byte} {r : Nat} {x : Byte} {h : HashState} (hr : r < 8)
    (message : MessageHash bs r x h) (room : bs.length % 64 < 56) :
    putLength (paddedBlock h (bs.length % 64) 56) (BitVec.ofNat 64 (bs.length / 64 + 1)) =
      blockOf (paddedBytes bs r x) (bs.length / 64) := by
  have blocks := blockCount_of_room hr room
  apply Vector.ext
  intro k hk
  rw [getElem_blockOf, getD_paddedBytes bs x hr hk (by omega), blocks, getElem_putLength]
  by_cases lengthField : 56 ≤ k
  · rw [if_pos lengthField, if_neg (by omega), if_neg (by omega), if_pos ⟨rfl, lengthField⟩]
  · have notLength : ¬ (bs.length / 64 + 1 = bs.length / 64 + 1 ∧ 56 ≤ k) := fun last => lengthField last.2
    rw [if_neg lengthField, if_neg notLength, getElem_paddedBlock_of_message message 56 hk (by omega)]

/-- Without it the padded block is the last but one (R80). -/
theorem spillBlock_of_message {bs : List Byte} {r : Nat} {x : Byte} {h : HashState} (hr : r < 8)
    (message : MessageHash bs r x h) (full : 56 ≤ bs.length % 64) :
    paddedBlock h (bs.length % 64) 64 = blockOf (paddedBytes bs r x) (bs.length / 64) := by
  have blocks := blockCount_of_spill hr full
  apply Vector.ext
  intro k hk
  have notLast : ¬ (bs.length / 64 + 1 = bs.length / 64 + 2 ∧ 56 ≤ k) := by omega
  rw [getElem_blockOf, getD_paddedBytes bs x hr hk (by omega), blocks, if_neg notLast,
    getElem_paddedBlock_of_message message 64 hk hk]

/-- And the last block is zeros and the length field (R81). -/
theorem lengthBlock_of_message {bs : List Byte} {r : Nat} (x : Byte) (block : Bytes 64) (hr : r < 8)
    (full : 56 ≤ bs.length % 64) :
    putLength (zeroFill block 0 56) (BitVec.ofNat 64 (bs.length / 64 + 2)) =
      blockOf (paddedBytes bs r x) (bs.length / 64 + 1) := by
  have blocks := blockCount_of_spill hr full
  apply Vector.ext
  intro k hk
  rw [getElem_blockOf, getD_paddedBytes bs x hr hk (by omega), blocks, if_neg (by omega), if_neg (by omega),
    getElem_putLength, getElem_zeroFill]
  by_cases lengthField : 56 ≤ k
  · rw [if_pos lengthField, if_pos ⟨rfl, lengthField⟩]
  · rw [if_neg lengthField, if_pos (by omega), if_neg fun last => lengthField last.2]

/-- FINALIZE compresses the rest of the padded message's blocks and counts them (R79 to R82). -/
theorem padAndAbsorb_of_message {bs : List Byte} {r : Nat} {x : Byte} {h : HashState} (hr : r < 8)
    (message : MessageHash bs r x h) :
    (padAndAbsorb h).cv = chainBytes (paddedBytes bs r x) (blockCount (8 * bs.length + r)) ∧
    (padAndAbsorb h).blkcnt = BitVec.ofNat 64 (blockCount (8 * bs.length + r)) := by
  have before : chainBytes (paddedBytes bs r x) (bs.length / 64) = h.cv := by
    rw [message.cv]
    exact chainBytes_congr fun i hi => List.getD_append _ _ _ _ (by omega)
  have counts : ∀ n, h.blkcnt + BitVec.ofNat 64 n = BitVec.ofNat 64 (bs.length / 64 + n) := by
    intro n
    rw [message.blkcnt, BitVec.ofNat_add]
  by_cases room : bs.length % 64 < 56
  · have count : h.blkcnt + 1 = BitVec.ofNat 64 (bs.length / 64 + 1) := counts 1
    rw [padAndAbsorb_of_room message.position room, count, onlyBlock_of_message hr message room,
      blockCount_of_room hr room, chainBytes_succ, before]
    exact ⟨rfl, rfl⟩
  · have full : 56 ≤ bs.length % 64 := Nat.not_lt.mp room
    have count : h.blkcnt + 2 = BitVec.ofNat 64 (bs.length / 64 + 2) := counts 2
    rw [padAndAbsorb_of_spill message.position full (by omega), count, lengthBlock_of_message x _ hr full,
      spillBlock_of_message hr message full, blockCount_of_spill hr full, chainBytes_succ, chainBytes_succ, before]
    exact ⟨rfl, rfl⟩

/-- The padded message's blocks, as bits and as bytes. -/
theorem chainBits_eq (bs : List Byte) {r : Nat} (x : Byte) (hr : r < 8) :
    chainBits (bs.flatMap byteBits ++ (byteBits x).take r) =
      chainBytes (paddedBytes bs r x) (blockCount (8 * bs.length + r)) := by
  have length := length_message bs x hr
  rw [chainBits, length, paddedBits_eq bs x hr, chainBytes]
  simp only [blockAt_flatMap_byteBits]

/-- Settles O31: the bytes of the chunks and the padding are the padded message's blocks. -/
theorem paddedMessageDigest : Obligations.PaddedMessageDigest := by
  unfold Obligations.PaddedMessageDigest
  intro s cs aligned
  obtain ⟨s1, bs, r, x, executed, ready, hr, hash, bits⟩ := execChunks_of_aligned aligned
    (s := { s with ovr := false, hash := hashInit, digest := zeroBytes 32, phase := .ready, result := .ok }) rfl rfl
  obtain ⟨cv, blkcnt⟩ := padAndAbsorb_of_message hr (messageHash_absorbTail x hr (absorbed_absorbBytes bs))
  refine ⟨_, s1, _, rfl, executed, exec_finalize_ready s1 ready, rfl, ?_, ?_⟩
  · dsimp only
    rw [hash, cv, hashBits, bits, chainBits_eq bs x hr]
  · rw [bits, length_message bs x hr]
    dsimp only
    rw [wipe_blkcnt, hash, blkcnt]
    rfl

/-! ### The digest does not depend on the split (R83) -/

/-- An UPDATE of the first 512 bits of a message, or of all of them. -/
def firstChunk (m : List Bool) : Chunk := ⟨blockAt m 0, BitVec.ofNat 10 (min m.length 512)⟩

theorem bitlen_firstChunk (m : List Bool) : (firstChunk m).bitlen.toNat = min m.length 512 :=
  toNat_ofNat_of_le_512 (Nat.min_le_right _ _)

theorem chunkBits_firstChunk (m : List Bool) : chunkBits (firstChunk m) = m.take 512 := by
  have bit : ∀ i, i < 512 → ((blockAt m 0).toList.flatMap byteBits).getD i false = m.getD i false := by
    intro i hi
    have index : 512 * 0 + 8 * (i / 8) + (7 - (7 - i % 8)) = i := by omega
    rw [getD_flatMap_byteBits, getD_toList, byteAt_of_lt _ _ (by omega), blockAt, Vector.getElem_ofFn,
      getLsbD_packByte _ (by omega), index]
  rw [chunkBits, bitlen_firstChunk, firstChunk]
  apply List.ext_getElem
  · simp only [List.length_take, length_flatMap_byteBits, Vector.length_toList]
    omega
  · intro i hi hi'
    rw [List.length_take] at hi'
    rw [List.getElem_take, List.getElem_take, ← List.getD_eq_getElem _ false, ← List.getD_eq_getElem _ false,
      bit i (by omega)]

/-- Every bit string is the message of a legal split: 512 bits at a time. -/
theorem exists_chunks (m : List Bool) : ∃ cs, chunksAligned cs = true ∧ messageBits cs = m := by
  have bits := chunkBits_firstChunk m
  by_cases last : m.length ≤ 512
  · refine ⟨[firstChunk m], decide_eq_true ?_, ?_⟩
    · rw [bitlen_firstChunk]
      exact Nat.min_le_right _ _
    · rw [messageBits, List.flatMap_singleton, bits, List.take_of_length_le last]
  · obtain ⟨cs, aligned, rest⟩ := exists_chunks (m.drop 512)
    cases cs with
    | nil =>
      have empty := congrArg List.length rest
      rw [List.length_drop] at empty
      exact absurd (Nat.le_of_sub_eq_zero empty.symm) last
    | cons d ds =>
      refine ⟨firstChunk m :: d :: ds, Bool.and_eq_true_iff.mpr ⟨decide_eq_true ?_, aligned⟩, ?_⟩
      · rw [bitlen_firstChunk]
        omega
      · rw [messageBits, List.flatMap_cons, bits]
        exact (congrArg (m.take 512 ++ ·) rest).trans (List.take_append_drop 512 m)
termination_by m.length
decreasing_by
  rw [List.length_drop]
  omega

/-- Settles O32: both digests are that of the message, which has a split. -/
theorem streamingEquivalence : Obligations.StreamingEquivalence := by
  unfold Obligations.StreamingEquivalence
  refine ⟨?digest, exists_chunks⟩
  case digest =>
    intro s u s0 s1 t u0 u1 v cs ds alignedC alignedD same init1 chunks1 final1 init2 chunks2 final2
    obtain ⟨s0', s1', t', init1', chunks1', final1', -, digest1, -⟩ := paddedMessageDigest s cs alignedC
    obtain ⟨u0', u1', v', init2', chunks2', final2', -, digest2, -⟩ := paddedMessageDigest u ds alignedD
    cases init1.symm.trans init1'
    cases chunks1.symm.trans chunks1'
    cases final1.symm.trans final1'
    cases init2.symm.trans init2'
    cases chunks2.symm.trans chunks2'
    cases final2.symm.trans final2'
    rw [digest1, digest2, same]

end Sys2Proof.Machine
end
